-- ==== Sys2Proof/Syntax.lean ====
section
/-! DEFINITION. The commands of the block: one constructor per row of spec/opcode_table.json (30_encoding.md R72).
A command word carries no operands (R70): they are OPA and OPB at the moment of the CMD write (R73). -/

namespace Sys2Proof

/-- A command (R72). -/
inductive Instr where
  /-- POPCNT: population count of a word (R100). -/
  | popcnt
  /-- RANK1: set bits below a position (R101). -/
  | rank1
  /-- RANK0: clear bits below a position (R102). -/
  | rank0
  /-- SELECT1: position of the (c+1)-th set bit (R103). -/
  | select1
  /-- SELECT0: position of the (c+1)-th clear bit (R104). -/
  | select0
  /-- CLZ: leading-zero count (R105). -/
  | clz
  /-- CTZ: trailing-zero count (R106). -/
  | ctz
  /-- DV_COUNT: set bits of the vector (R120). -/
  | dvCount
  /-- DV_RANK1: set bits below a position of the vector (R121). -/
  | dvRank1
  /-- DV_RANK0: clear bits below a position of the vector (R122). -/
  | dvRank0
  /-- DV_SELECT1: position of the (c+1)-th set bit of the vector, linear strategy (R123). -/
  | dvSelect1
  /-- DV_SELECT0: position of the (c+1)-th clear bit of the vector (R124). -/
  | dvSelect0
  /-- DV_SELECTS: position of the (c+1)-th set bit of the vector, binary-search strategy (R125). -/
  | dvSelects
  /-- DV_INSERT: set a bit, growing the vector (R142). -/
  | dvInsert
  /-- DV_REMOVE: clear a bit (R143). -/
  | dvRemove
  /-- DV_TEST: read a bit (R144). -/
  | dvTest
  /-- DV_READW: read a storage word (R145). -/
  | dvReadw
  /-- DV_CLEAR: make the vector empty (R146). -/
  | dvClear
deriving DecidableEq, Repr

end Sys2Proof
end

