-- ==== Sys2Proof/Word.lean ====
section
/-! DEFINITION. The machine word (00_scope.md R5) and the byte lane of the host's bus (20_memory.md R55). -/

namespace Sys2Proof

/-- A Word: 64 bit positions, bit `i` of weight `2^i` (R5, R8). -/
abbrev Word := BitVec 64

/-- One byte lane of a bus access (R55). -/
abbrev Byte := BitVec 8

end Sys2Proof
end

