-- ==== Sys2Proof/Decode.lean ====
section
/-! DEFINITION. Decoding a command word (30_encoding.md R70 to R75), the bus's byte order
(20_memory.md R55), and the encoder. -/

namespace Sys2Proof

/-- Why a value is no command word. -/
inductive DecodeReject where
  /-- A bit of RSV, `v[63:8]`, is set (R71). -/
  | reservedBits
  /-- OP, `v[7:0]`, is not listed in R72. -/
  | reservedOpcode
  /-- Fewer than the eight bytes of a command (R75: there is one command length). -/
  | truncated
deriving DecidableEq, Repr

/-- The opcode column of R72's table. -/
def opcode : Instr → BitVec 8
  | .popcnt => 0x01#8
  | .rank1 => 0x02#8
  | .rank0 => 0x03#8
  | .select1 => 0x04#8
  | .select0 => 0x05#8
  | .clz => 0x06#8
  | .ctz => 0x07#8
  | .dvCount => 0x10#8
  | .dvRank1 => 0x11#8
  | .dvRank0 => 0x12#8
  | .dvSelect1 => 0x13#8
  | .dvSelect0 => 0x14#8
  | .dvSelects => 0x15#8
  | .dvInsert => 0x20#8
  | .dvRemove => 0x21#8
  | .dvTest => 0x22#8
  | .dvReadw => 0x23#8
  | .dvClear => 0x24#8

/-- The command an opcode names, none for a reserved one (R72, R74). -/
def instrOfOpcode (op : BitVec 8) : Option Instr :=
  match op with
  | 0x01#8 => some .popcnt
  | 0x02#8 => some .rank1
  | 0x03#8 => some .rank0
  | 0x04#8 => some .select1
  | 0x05#8 => some .select0
  | 0x06#8 => some .clz
  | 0x07#8 => some .ctz
  | 0x10#8 => some .dvCount
  | 0x11#8 => some .dvRank1
  | 0x12#8 => some .dvRank0
  | 0x13#8 => some .dvSelect1
  | 0x14#8 => some .dvSelect0
  | 0x15#8 => some .dvSelects
  | 0x20#8 => some .dvInsert
  | 0x21#8 => some .dvRemove
  | 0x22#8 => some .dvTest
  | 0x23#8 => some .dvReadw
  | 0x24#8 => some .dvClear
  | _ => none

/-- OP: bits 7:0 of a command word (R70). -/
def fieldOP (v : Word) : BitVec 8 := v.extractLsb' 0 8

/-- RSV: bits 63:8 of a command word (R70). -/
def fieldRSV (v : Word) : BitVec 56 := v.extractLsb' 8 56

/-- Decoding of a 64-bit command word, total (R71). -/
def decodeWord (v : Word) : Except DecodeReject Instr :=
  if fieldRSV v = 0#56 then
    match instrOfOpcode (fieldOP v) with
    | some i => .ok i
    | none => .error .reservedOpcode
  else .error .reservedBits

/-- The 64-bit value whose bits `8j+7:8j` are byte `j` of the list (R55: little-endian). A list shorter than
eight bytes leaves the upper bits 0; bytes past the eighth are dropped. -/
def wordOfBytes (bs : List Byte) : Word :=
  BitVec.ofNat 64 (bs.foldr (fun b acc => b.toNat + 256 * acc) 0)

/-- Byte `j` of a 64-bit access: bits `8j+7:8j` (R55). -/
def busByte (v : Word) (j : Nat) : Byte := v.extractLsb' (8 * j) 8

/-- The eight bytes of a 64-bit access, lowest address first (R55). -/
def bytesOfWord (v : Word) : List Byte :=
  [busByte v 0, busByte v 1, busByte v 2, busByte v 3, busByte v 4, busByte v 5, busByte v 6, busByte v 7]

/-- Decoding of bytes as they lie on the bus: eight bytes are one command (R55, R75); the rest of the list is
returned. Total on every list. -/
def decodeBytes (bs : List Byte) : Except DecodeReject (Instr × List Byte) :=
  if bs.length < 8 then .error .truncated
  else
    match decodeWord (wordOfBytes (bs.take 8)) with
    | .ok i => .ok (i, bs.drop 8)
    | .error e => .error e

/-- The command word of a command: `zext_64(OP)`, RSV zero (R70, R76). -/
def encode (i : Instr) : Word := (opcode i).setWidth 64

/-- What the decoder reads from a command whose bits are `w`, of which the table gives `nbits` and the bits
above are 0; the command is laid out as eight bytes, the lowest first. A value wider than 64 bits is no
command word (R75). -/
def decodeTableWord (nbits w : Nat) : Option Instr :=
  if 64 < nbits then none
  else
    match decodeBytes (bytesOfWord (BitVec.ofNat 64 (w % 2 ^ nbits))) with
    | .ok (i, _) => some i
    | .error _ => none

end Sys2Proof
end

