-- ==== Sys2Proof/Config.lean ====
section
/-! DEFINITION. The parameters of the block (00_scope.md R6), as one configuration record.
The spec leaves no value of any instruction open, so there is no free value here. -/

namespace Sys2Proof

/-- How far DV_SELECT0 looks for clear bits: `P_SELECT0_LIMIT` (R6, 92_eei_decisions.md D10). -/
inductive Select0Limit where
  /-- The bits `[0, 64*DVLEN)`. The default. -/
  | length
  /-- The bits `[0, CAP_BITS)`. -/
  | capacity
deriving DecidableEq, Repr

/-- The parameter set of R6. It is fixed for a block: no step changes it. -/
structure Params where
  /-- `MAX_WORDS`: the storage array's size in words; legal in [1, 65535]. -/
  maxWords : Nat
  /-- `P_SELECT0_LIMIT`. -/
  select0Limit : Select0Limit
  /-- `P_BASE`: the window's byte address in the host's address space; OPEN; a multiple of 0x40 (R50).
  DESIGN CHOICE: a natural number, since no rule gives the width of a host address (log 5). -/
  base : Nat
deriving DecidableEq, Repr

/-- `CAP_BITS = 64 * MAX_WORDS` (R6): 65600 at the default. -/
abbrev Params.capBits (p : Params) : Nat := 64 * p.maxWords

/-- R6's defaults. DESIGN CHOICE (log 4): `P_BASE`, which R6 leaves OPEN, is 0 here. -/
def Params.default : Params := { maxWords := 1025, select0Limit := .length, base := 0 }

end Sys2Proof
end

