-- ==== Sys2Proof/Machine/State.lean ====
section
/-! DEFINITION. The state of the block (10_state.md R20), the events of its one port (20_memory.md), the reasons
a step can stop, and the state after reset (10_state.md R36, 70_reset_and_hazards.md R180). -/

namespace Sys2Proof.Machine

/-- The error codes of STATUS.ERR (60_exceptions.md R160, 10_state.md R27: no other value is ever written). -/
inductive ErrCode where
  /-- Code 0, NONE: no fault since reset. -/
  | none
  /-- Code 1, ILLEGAL: a CMD write whose value is no command. -/
  | illegal
  /-- Code 2, OPERAND: RANK1 or RANK0 with OPB > 64. -/
  | operand
  /-- Code 3, CAPACITY: DV_INSERT with OPA >= CAP_BITS. -/
  | capacity
deriving DecidableEq, Repr

/-- The registers of the host's window (20_memory.md R51). -/
inductive WindowReg where
  | cmd | opa | opb | res | status | dvlen | cfg
  /-- Offset 0x38: reads 0, writes ignored. -/
  | reserved
deriving DecidableEq, Repr

/-- What the block's port receives: a host access of any width at any byte address (whether it is admitted is
R52's, decided by the step), or the platform's reset (R180), which is no host access. -/
inductive Input where
  /-- A host read of `width` bytes at byte address `addr`. -/
  | read (addr : Nat) (width : Nat)
  /-- A host write at byte address `addr` of the bytes, lowest address first (R55). -/
  | write (addr : Nat) (bytes : List Byte)
  /-- The platform asserts reset (R180). -/
  | reset
deriving DecidableEq, Repr

/-- The storage array DV (R31) as (word index, word) pairs, indices rising, no zero word listed: an unlisted
word is 0, its reset value (R31, R36). DESIGN CHOICE (log 9): the cell is a word, since the array has no byte
addressing (R57). -/
abbrev Memory := List (Nat × Word)

/-- The state. The first seven fields are R20's tuple; `params` fixes CFG (R29); `inputs` and `replies` are the
model's own view of the host's side of the port (log 1, log 2). -/
structure State where
  /-- OPA (R22). -/
  opa : Word
  /-- OPB (R23). -/
  opb : Word
  /-- RES (R24). -/
  res : Word
  /-- STATUS.NF (R26). -/
  nf : Bool
  /-- STATUS.ERR (R27). -/
  err : ErrCode
  /-- DVLEN, in words (R30). -/
  dvlen : Nat
  /-- DV (R31). -/
  dv : Memory
  /-- The parameters (R6); no step changes them. DESIGN CHOICE (log 3). -/
  params : Params
  /-- What the port receives next, in the order it arrives (R60). DESIGN CHOICE (log 1). -/
  inputs : List Input
  /-- What the port has answered reads with, oldest first. DESIGN CHOICE (log 2). -/
  replies : List Word
deriving DecidableEq, Repr

/-- Why a step stops with a fault. The SPEC's faults (ILLEGAL, OPERAND, CAPACITY) are not among these: they are
next states with STATUS.ERR written (R163). -/
inductive Fault where
  /-- An access that R52 does not admit: not 64 bits wide, not at a multiple of 8, or outside the window. Raised by
  the step on such a `read` or `write`. R52: "the model gives it no step: the host agent is stuck at it". Safe: the
  model stops where a platform may go on (log 6). -/
  | notAdmitted
deriving DecidableEq, Repr

/-- Why a step is refused. -/
inductive Refusal where
  /-- A command without a meaning, by its mnemonic. No arm of `exec` answers it: every command of the opcode table
  has its meaning. Safe. -/
  | notModelled (mnemonic : String)
deriving DecidableEq, Repr

/-- The reset values of R36 for a block with the given parameters: OPA = OPB = RES = 0, STATUS = 0, DVLEN = 0,
every DV word 0. -/
def State.resetWith (p : Params) : State :=
  { opa := 0#64, opb := 0#64, res := 0#64, nf := false, err := .none, dvlen := 0, dv := [], params := p,
    inputs := [], replies := [] }

/-- The state after reset, at the default parameters of R6 (log 4: `P_BASE`). -/
def State.reset : State := State.resetWith Params.default

end Sys2Proof.Machine
end

