-- ==== Sys2Proof/Machine/Flags.lean ====
section
/-! DEFINITION. STATUS (10_state.md R25 to R27) and CFG (R29) as the words the host reads, and how a select sets
RES and the not-found flag. -/

namespace Sys2Proof.Machine

/-- The 4-bit code of STATUS.ERR (R27, 60_exceptions.md R160). -/
def ErrCode.code : ErrCode → BitVec 4
  | .none => 0#4
  | .illegal => 1#4
  | .operand => 2#4
  | .capacity => 3#4

/-- STATUS as R25 lays it out: NF in bit 0, ERR in bits 7:4, every other bit 0. -/
def statusWord (nf : Bool) (e : ErrCode) : Word := 0#56 ++ e.code ++ 0#3 ++ BitVec.ofBool nf

/-- CFG's S0LIM field, bit 24 (R29). -/
def s0lim : Select0Limit → BitVec 1
  | .length => 0#1
  | .capacity => 1#1

/-- CFG as R29 lays it out: MAX_WORDS in bits 15:0, WBITS = 0x40 in bits 23:16, S0LIM in bit 24, 0 above. -/
def cfgWord (p : Params) : Word := 0#39 ++ s0lim p.select0Limit ++ 0x40#8 ++ BitVec.ofNat 16 p.maxWords

/-- `NOTFOUND` (00_scope.md R7): the 64-bit pattern of -1. -/
def notFound : Word := 0xFFFF_FFFF_FFFF_FFFF#64

/-- `zext_64(n)` (R9). -/
def zext64 (n : Nat) : Word := BitVec.ofNat 64 n

/-- What a select writes to RES: the position, or `NOTFOUND` (R7, R103). -/
def selectRes : Option Nat → Word
  | some p => zext64 p
  | none => notFound

/-- What a select writes to NF: 1 when too few bits qualify (R26). -/
def selectNF : Option Nat → Bool
  | some _ => false
  | none => true

end Sys2Proof.Machine
end

