-- ==== Sys2Proof/Machine/Operands.lean ====
section
/-! DEFINITION. Operand forms (30_encoding.md R73): OPA and OPB are read whole, as unsigned 64-bit integers, never
sign-extended, scaled or shifted; and how a position names a word and a bit (20_memory.md R57). -/

namespace Sys2Proof.Machine

/-- `w = OPA`: the word operand of the word-kernel commands. -/
abbrev operandWord (s : State) : Word := s.opa

/-- OPA as an unsigned integer: the position `i`, the rank `c` or the word index `k` of a dense-vector command. -/
abbrev operandA (s : State) : Nat := s.opa.toNat

/-- OPB as an unsigned integer: the position `i` of RANK1 and RANK0, the rank `c` of SELECT1 and SELECT0. -/
abbrev operandB (s : State) : Nat := s.opb.toNat

/-- `i div 64`: the word that holds position `i` (R57, 10_state.md R31). -/
abbrev wordIndex (i : Nat) : Nat := i / 64

/-- `i mod 64`: the bit of that word. -/
abbrev bitIndex (i : Nat) : Nat := i % 64

/-- Whether a command reads OPA (R72's column "reads", R73). -/
def readsA : Instr → Bool
  | .popcnt => true
  | .rank1 => true
  | .rank0 => true
  | .select1 => true
  | .select0 => true
  | .clz => true
  | .ctz => true
  | .dvCount => false
  | .dvRank1 => true
  | .dvRank0 => true
  | .dvSelect1 => true
  | .dvSelect0 => true
  | .dvSelects => true
  | .dvInsert => true
  | .dvRemove => true
  | .dvTest => true
  | .dvReadw => true
  | .dvClear => false

/-- Whether a command reads OPB (R72's column "reads", R73; 10_state.md R23: no other command reads it). -/
def readsB : Instr → Bool
  | .popcnt => false
  | .rank1 => true
  | .rank0 => true
  | .select1 => true
  | .select0 => true
  | .clz => false
  | .ctz => false
  | .dvCount => false
  | .dvRank1 => false
  | .dvRank0 => false
  | .dvSelect1 => false
  | .dvSelect0 => false
  | .dvSelects => false
  | .dvInsert => false
  | .dvRemove => false
  | .dvTest => false
  | .dvReadw => false
  | .dvClear => false

end Sys2Proof.Machine
end

