-- ==== Sys2Proof/Machine/Ops.lean ====
section
/-! DEFINITION. The named operations: bit counting and select on one word, the storage array, completion of a
command, raising an error (the block's one exception entry), the lockout, and reset. -/

namespace Sys2Proof.Machine

/-- `sum_{k<n} f(k)` (00_scope.md R9). -/
def sumTo (f : Nat → Nat) : Nat → Nat
  | 0 => 0
  | n + 1 => sumTo f n + f n

/-- `count(w)`: the number of `i` in [0,64) with `w[i] = 1` (R9). The zero word is answered without the sum, which is
0 for it, so that a long vector of zero words is counted quickly. -/
def count (w : Word) : Nat := if w = 0#64 then 0 else sumTo (fun i => (w.getLsbD i).toNat) 64

/-- `mask(i)`: the word whose bits [0,i) are 1 and whose others are 0 (R9). -/
def mask (i : Nat) : Word := BitVec.ofNat 64 (2 ^ i - 1)

/-- The word-level rank of 40_word_kernel.md R101: `count(w & mask(i))`. -/
def rankOfWord (w : Word) (i : Nat) : Nat := count (w &&& mask i)

/-- The word-level select of R103: none when `c >= count(w)`, else the `p` in [0,64) with `w[p] = 1` and
`count(w & mask(p)) = c`. -/
def selectOfWord (w : Word) (c : Nat) : Option Nat :=
  if count w ≤ c then none
  else (List.range 64).find? (fun p => w.getLsbD p && decide (rankOfWord w p = c))

/-- `DV[k]` (R31): an unlisted word is 0. The listed indices rise, so the search stops at the first larger one. -/
def Memory.read : Memory → Nat → Word
  | [], _ => 0#64
  | (j, u) :: m, k => if k < j then 0#64 else if k = j then u else Memory.read m k

/-- `DV[k] <- v` (R9), keeping the canonical form: a zero word is not listed. -/
def Memory.write : Memory → Nat → Word → Memory
  | [], k, v => if v = 0#64 then [] else [(k, v)]
  | (j, u) :: m, k, v =>
    if k < j then (if v = 0#64 then (j, u) :: m else (k, v) :: (j, u) :: m)
    else if k = j then (if v = 0#64 then m else (k, v) :: m)
    else (j, u) :: Memory.write m k v

/-- Every listed index is at least `lo`, the indices rise strictly, and no listed word is 0. -/
def Memory.wfFrom : Nat → Memory → Bool
  | _, [] => true
  | lo, (j, u) :: m => decide (lo ≤ j) && decide (u ≠ 0#64) && Memory.wfFrom (j + 1) m

/-- The canonical form of the storage: indices rise strictly, no listed word equals what an unlisted one reads. -/
def Memory.wf (m : Memory) : Bool := Memory.wfFrom 0 m

/-- Every listed index is below `n`. -/
def Memory.below (n : Nat) (m : Memory) : Bool := m.all (fun c => decide (c.1 < n))

/-- `DVRead(k)` (42_dense_storage.md R140): total; 0 at and beyond the length. -/
def dvRead (s : State) (k : Nat) : Word := if k < s.dvlen then Memory.read s.dv k else 0#64

/-- Bit `i` of the vector, `DVRead(i div 64)[i mod 64]` (R144). -/
def dvBit (s : State) (i : Nat) : Bool := (dvRead s (wordIndex i)).getLsbD (bitIndex i)

/-- A word with bit `b` set. -/
def setBit (w : Word) (b : Nat) : Word := w ||| BitVec.ofNat 64 (2 ^ b)

/-- A word with bit `b` cleared. -/
def clearBit (w : Word) (b : Nat) : Word := w &&& ~~~ BitVec.ofNat 64 (2 ^ b)

/-- Completion of a command: RES and STATUS.NF are written (10_state.md R24, R26). -/
def State.complete (s : State) (v : Word) (nf : Bool) : State := { s with res := v, nf := nf }

/-- Completion of a select: RES is the position with NF = 0, or `NOTFOUND` with NF = 1 (R26). -/
def State.completeSelect (s : State) (r : Option Nat) : State := s.complete (selectRes r) (selectNF r)

/-- `raise Error(code)`: exactly one change, `STATUS.ERR <- code` (60_exceptions.md R163). There is no handler,
no saved state and no return (R165). -/
def State.raiseError (s : State) (code : ErrCode) : State := { s with err := code }

/-- The fault lockout (R164, and R162's first check): while STATUS.ERR is not 0 a command changes nothing
(log 14: said of each command as well as of the CMD write). -/
def unlessLocked (s : State) (o : Host.Outcome State Fault Refusal) : Host.Outcome State Fault Refusal :=
  if s.err = .none then o else .next s

/-- `OPA <- v` by the host (R22). -/
def State.setOpa (s : State) (v : Word) : State := { s with opa := v }

/-- `OPB <- v` by the host (R23). -/
def State.setOpb (s : State) (v : Word) : State := { s with opb := v }

/-- `DV <- m` and `DVLEN <- n`. -/
def State.setVector (s : State) (m : Memory) (n : Nat) : State := { s with dv := m, dvlen := n }

/-- The port has taken its oldest input. -/
def State.setInputs (s : State) (l : List Input) : State := { s with inputs := l }

/-- The port answers a read with `v`. -/
def State.reply (s : State) (v : Word) : State := { s with replies := s.replies ++ [v] }

/-- The block's reset from any state (70_reset_and_hazards.md R180): every piece of state at its reset value. The
parameters are the block's own; what the host has still to send and has already been told is the host's (log 8). -/
def State.resetBlock (s : State) : State :=
  { State.resetWith s.params with inputs := s.inputs, replies := s.replies }

/-- The offset of a window register (20_memory.md R51). -/
def WindowReg.offset : WindowReg → Nat
  | .cmd => 0x00
  | .opa => 0x08
  | .opb => 0x10
  | .res => 0x18
  | .status => 0x20
  | .dvlen => 0x28
  | .cfg => 0x30
  | .reserved => 0x38

/-- The window register at an offset, none off the multiples of 8 or outside the window (R51, R52). -/
def WindowReg.ofOffset (o : Nat) : Option WindowReg :=
  match o with
  | 0x00 => some .cmd
  | 0x08 => some .opa
  | 0x10 => some .opb
  | 0x18 => some .res
  | 0x20 => some .status
  | 0x28 => some .dvlen
  | 0x30 => some .cfg
  | 0x38 => some .reserved
  | _ => none

/-- The register an access reaches, none when the access is not admitted (R50, R52): `width` counts bytes. -/
def admitted (p : Params) (addr width : Nat) : Option WindowReg :=
  if width = 8 ∧ p.base ≤ addr then WindowReg.ofOffset (addr - p.base) else none

/-- What a host read of a window register returns (R51): CMD and the reserved offset read 0. -/
def readReg (s : State) : WindowReg → Word
  | .cmd => 0#64
  | .opa => s.opa
  | .opb => s.opb
  | .res => s.res
  | .status => statusWord s.nf s.err
  | .dvlen => zext64 s.dvlen
  | .cfg => cfgWord s.params
  | .reserved => 0#64

end Sys2Proof.Machine
end

