-- ==== Sys2Proof/Machine/DenseQuery.lean ====
section
/-! DEFINITION. The dense bit-vector queries (41_dense_query.md R120 to R128). They write RES and NF only and raise
no error. -/

namespace Sys2Proof.Machine

/-- `ones(k) = sum_{j < min(k, DVLEN)} count(DV[j])` (R127). -/
def ones (s : State) (k : Nat) : Nat := sumTo (fun j => count (Memory.read s.dv j)) (min k s.dvlen)

/-- `total = ones(DVLEN)` (R127). -/
def total (s : State) : Nat := ones s s.dvlen

/-- `zeros(k) = 64*k - ones(k)` (R127). -/
def zeros (s : State) (k : Nat) : Nat := 64 * k - ones s k

/-- The owning word of rank `c`, and the sum before it: the first of the `n` words from `k` at which the running sum
passes `c`, where `before` is the sum of the earlier ones (R123: "accumulate per-word counts until the owning word
is found"). -/
def owningWord (f : Nat → Nat) (c : Nat) : Nat → Nat → Nat → Option (Nat × Nat)
  | 0, _, _ => none
  | n + 1, k, before =>
    if c < before + f k then some (k, before) else owningWord f c n (k + 1) (before + f k)

/-- The value of R121: `ones(i div 64) + count(DVRead(i div 64) & mask(i mod 64))`. -/
def dvRankValue (s : State) (i : Nat) : Nat :=
  ones s (wordIndex i) + rankOfWord (dvRead s (wordIndex i)) (bitIndex i)

/-- The linear select of R123: none when `c >= total`, else `64*k + select1(DV[k], c - ones(k))` for the owning
word `k` among the first DVLEN. -/
def dvSelectOne (s : State) (c : Nat) : Option Nat :=
  if total s ≤ c then none
  else
    match owningWord (fun k => count (Memory.read s.dv k)) c s.dvlen 0 0 with
    | some (k, before) => (selectOfWord (Memory.read s.dv k) (c - before)).map (64 * k + ·)
    | none => none

/-- `L` of R124: DVLEN or MAX_WORDS, as `P_SELECT0_LIMIT` says (D10). -/
def select0Words (s : State) : Nat :=
  match s.params.select0Limit with
  | .length => s.dvlen
  | .capacity => s.params.maxWords

/-- The select of clear bits of R124: none when `c >= zeros(L)`, else `64*k + select0(DVRead(k), c - zeros(k))` for
the owning word `k` among the first `L`. -/
def dvSelectZero (s : State) (c : Nat) : Option Nat :=
  if zeros s (select0Words s) ≤ c then none
  else
    match owningWord (fun k => count (~~~ dvRead s k)) c (select0Words s) 0 0 with
    | some (k, before) => (selectOfWord (~~~ dvRead s k) (c - before)).map (64 * k + ·)
    | none => none

/-- DV_COUNT (R120). -/
def execDvCount (s : State) : Host.Outcome State Fault Refusal :=
  unlessLocked s (.next (s.complete (zext64 (total s)) false))

/-- DV_RANK1 (R121). -/
def execDvRank1 (s : State) : Host.Outcome State Fault Refusal :=
  unlessLocked s (.next (s.complete (zext64 (dvRankValue s (operandA s))) false))

/-- DV_RANK0 (R122): `i` less the value of R121. -/
def execDvRank0 (s : State) : Host.Outcome State Fault Refusal :=
  unlessLocked s (.next (s.complete (zext64 (operandA s - dvRankValue s (operandA s))) false))

/-- DV_SELECT1 (R123). -/
def execDvSelect1 (s : State) : Host.Outcome State Fault Refusal :=
  unlessLocked s (.next (s.completeSelect (dvSelectOne s (operandA s))))

/-- DV_SELECT0 (R124). -/
def execDvSelect0 (s : State) : Host.Outcome State Fault Refusal :=
  unlessLocked s (.next (s.completeSelect (dvSelectZero s (operandA s))))

/-- DV_SELECTS (R125): by definition the result of R123 for the same `c` and state. The strategy itself is
`binarySearchSelect` of Machine/Strategies.lean. -/
def execDvSelects (s : State) : Host.Outcome State Fault Refusal :=
  unlessLocked s (.next (s.completeSelect (dvSelectOne s (operandA s))))

end Sys2Proof.Machine
end

