-- ==== Sys2Proof/Machine/DenseStorage.lean ====
section
/-! DEFINITION. The dense bit-vector storage commands (42_dense_storage.md R140 to R146). -/

namespace Sys2Proof.Machine

/-- R142 after its check, for bit `b` of word `k`: DVLEN grows to cover word `k` if it does not yet, the bit is set,
RES is 1 when it was clear (90_conflicts.md C1: insert sets). -/
def insertAt (s : State) (k b : Nat) : State :=
  (s.setVector (Memory.write s.dv k (setBit (Memory.read s.dv k) b)) (if s.dvlen ≤ k then k + 1 else s.dvlen)).complete
    (zext64 (1 - ((Memory.read s.dv k).getLsbD b).toNat)) false

/-- R142 after its check, for position `i`. -/
def insertBit (s : State) (i : Nat) : State := insertAt s (wordIndex i) (bitIndex i)

/-- R143 for bit `b` of word `k`: the bit is cleared if its word is below the length; RES is 1 when it was set.
DVLEN never changes (90_conflicts.md C1: remove clears; D12: no growth, no fault). -/
def removeAt (s : State) (k b : Nat) : State :=
  if k < s.dvlen then
    (s.setVector (Memory.write s.dv k (clearBit (Memory.read s.dv k) b)) s.dvlen).complete
      (zext64 ((Memory.read s.dv k).getLsbD b).toNat) false
  else s.complete 0#64 false

/-- R143 for position `i`. -/
def removeBit (s : State) (i : Nat) : State := removeAt s (wordIndex i) (bitIndex i)

/-- DV_INSERT (R142): `CAPACITY` when `OPA >= CAP_BITS`, and then nothing else changes (R163). -/
def execDvInsert (s : State) : Host.Outcome State Fault Refusal :=
  unlessLocked s
    (if s.params.capBits ≤ operandA s then .next (s.raiseError .capacity) else .next (insertBit s (operandA s)))

/-- DV_REMOVE (R143). -/
def execDvRemove (s : State) : Host.Outcome State Fault Refusal :=
  unlessLocked s (.next (removeBit s (operandA s)))

/-- DV_TEST (R144). -/
def execDvTest (s : State) : Host.Outcome State Fault Refusal :=
  unlessLocked s (.next (s.complete (zext64 (dvBit s (operandA s)).toNat) false))

/-- DV_READW (R145). -/
def execDvReadw (s : State) : Host.Outcome State Fault Refusal :=
  unlessLocked s (.next (s.complete (dvRead s (operandA s)) false))

/-- DV_CLEAR (R146): every DV word 0, DVLEN 0, RES 0. -/
def execDvClear (s : State) : Host.Outcome State Fault Refusal :=
  unlessLocked s (.next ((s.setVector [] 0).complete 0#64 false))

end Sys2Proof.Machine
end

