-- ==== Sys2Proof/Machine/WordKernel.lean ====
section
/-! DEFINITION. The word kernel commands (40_word_kernel.md R100 to R107). None reads or writes DV or DVLEN; each
reads the operands it names and no other state, but for the lockout (R107, R164). -/

namespace Sys2Proof.Machine

/-- The RANK1 and RANK0 precondition: `OPERAND` when `OPB > 64` (R101, R102, R160). -/
def rankCommand (s : State) (v : Nat) : Host.Outcome State Fault Refusal :=
  unlessLocked s (if 64 < operandB s then .next (s.raiseError .operand) else .next (s.complete (zext64 v) false))

/-- POPCNT (R100). -/
def execPopcnt (s : State) : Host.Outcome State Fault Refusal :=
  unlessLocked s (.next (s.complete (zext64 (count (operandWord s))) false))

/-- RANK1 (R101). -/
def execRank1 (s : State) : Host.Outcome State Fault Refusal :=
  rankCommand s (rankOfWord (operandWord s) (operandB s))

/-- RANK0 (R102). -/
def execRank0 (s : State) : Host.Outcome State Fault Refusal :=
  rankCommand s (operandB s - rankOfWord (operandWord s) (operandB s))

/-- SELECT1 (R103). -/
def execSelect1 (s : State) : Host.Outcome State Fault Refusal :=
  unlessLocked s (.next (s.completeSelect (selectOfWord (operandWord s) (operandB s))))

/-- SELECT0 (R104): `select1(~w, c)`. -/
def execSelect0 (s : State) : Host.Outcome State Fault Refusal :=
  unlessLocked s (.next (s.completeSelect (selectOfWord (~~~ operandWord s) (operandB s))))

/-- `leadingZeros(w)` (R105, 90_conflicts.md C3): 64 at 0, else `63 - select1(w, count(w) - 1)`. That select finds a
bit for every nonzero word, so `getD`'s 0 is never taken (log 13). -/
def leadingZeros (w : Word) : Nat :=
  if w = 0#64 then 64 else 63 - (selectOfWord w (count w - 1)).getD 0

/-- `trailingZeros(w)` (R106, C3): 64 at 0, else `select1(w, 0)`, which finds a bit (log 13). -/
def trailingZeros (w : Word) : Nat :=
  if w = 0#64 then 64 else (selectOfWord w 0).getD 0

/-- CLZ (R105). -/
def execClz (s : State) : Host.Outcome State Fault Refusal :=
  unlessLocked s (.next (s.complete (zext64 (leadingZeros (operandWord s))) false))

/-- CTZ (R106). -/
def execCtz (s : State) : Host.Outcome State Fault Refusal :=
  unlessLocked s (.next (s.complete (zext64 (trailingZeros (operandWord s))) false))

end Sys2Proof.Machine
end

