-- ==== Sys2Proof/Machine/Dispatch.lean ====
section
/-! DEFINITION. One arm per command of spec/opcode_table.json (30_encoding.md R72). -/

namespace Sys2Proof.Machine

def exec (i : Instr) (s : State) : Host.Outcome State Fault Refusal :=
  match i with
  | .popcnt => Sys2Proof.Machine.execPopcnt s
  | .rank1 => Sys2Proof.Machine.execRank1 s
  | .rank0 => Sys2Proof.Machine.execRank0 s
  | .select1 => Sys2Proof.Machine.execSelect1 s
  | .select0 => Sys2Proof.Machine.execSelect0 s
  | .clz => Sys2Proof.Machine.execClz s
  | .ctz => Sys2Proof.Machine.execCtz s
  | .dvCount => Sys2Proof.Machine.execDvCount s
  | .dvRank1 => Sys2Proof.Machine.execDvRank1 s
  | .dvRank0 => Sys2Proof.Machine.execDvRank0 s
  | .dvSelect1 => Sys2Proof.Machine.execDvSelect1 s
  | .dvSelect0 => Sys2Proof.Machine.execDvSelect0 s
  | .dvSelects => Sys2Proof.Machine.execDvSelects s
  | .dvInsert => Sys2Proof.Machine.execDvInsert s
  | .dvRemove => Sys2Proof.Machine.execDvRemove s
  | .dvTest => Sys2Proof.Machine.execDvTest s
  | .dvReadw => Sys2Proof.Machine.execDvReadw s
  | .dvClear => Sys2Proof.Machine.execDvClear s

end Sys2Proof.Machine
end

