-- ==== Sys2Proof/Machine/Port.lean ====
section
/-! DEFINITION. The host port (20_memory.md R50 to R60): what an admitted read or write of the window does, and a CMD
write in the order of checks of 60_exceptions.md R162. -/

namespace Sys2Proof.Machine

/-- A CMD write of `v`, R162's checks in order: the lockout (R164); the decode, whose failure raises ILLEGAL (R161);
then the command, which makes its own check. -/
def commandWrite (s : State) (v : Word) : Host.Outcome State Fault Refusal :=
  unlessLocked s
    (match decodeWord v with
     | .error _ => .next (s.raiseError .illegal)
     | .ok i => exec i s)

/-- A host write of a window register (R51, R53): CMD issues a command, OPA and OPB are replaced, every other register
ignores the write. -/
def writeReg (s : State) (r : WindowReg) (v : Word) : Host.Outcome State Fault Refusal :=
  match r with
  | .cmd => commandWrite s v
  | .opa => .next (s.setOpa v)
  | .opb => .next (s.setOpb v)
  | .res => .next s
  | .status => .next s
  | .dvlen => .next s
  | .cfg => .next s
  | .reserved => .next s

/-- A host read at byte address `addr` of `width` bytes: no side effect (R53) but the answer; an access that is not
admitted has no step (R52). -/
def hostRead (s : State) (addr width : Nat) : Host.Outcome State Fault Refusal :=
  match admitted s.params addr width with
  | some r => .next (s.reply (readReg s r))
  | none => .fault .notAdmitted

/-- A host write at byte address `addr` of the bytes, lowest address first (R55). -/
def hostWrite (s : State) (addr : Nat) (bytes : List Byte) : Host.Outcome State Fault Refusal :=
  match admitted s.params addr bytes.length with
  | some r => writeReg s r (wordOfBytes bytes)
  | none => .fault .notAdmitted

/-- What one input of the port does (10_state.md R20, 70_reset_and_hazards.md R180). -/
def perform (s : State) (e : Input) : Host.Outcome State Fault Refusal :=
  match e with
  | .read addr width => hostRead s addr width
  | .write addr bytes => hostWrite s addr bytes
  | .reset => .next s.resetBlock

/-- One transition of the block: the port performs its oldest input (R60). With none waiting the block keeps its
state (R20: it changes state only by a host write or by reset; log 7). -/
def portStep (s : State) : Host.Outcome State Fault Refusal :=
  match s.inputs with
  | [] => .next s
  | e :: rest => perform (s.setInputs rest) e

/-- `s` with `e` as the input its port performs next. Every state with a waiting input is of this form. -/
def State.withInput (s : State) (e : Input) : State := s.setInputs (e :: s.inputs)

end Sys2Proof.Machine
end

