-- ==== Sys2Proof/Machine/Step.lean ====
section
/-! DEFINITION. One step of the machine, and how an instruction is put where the step takes its next one. -/

namespace Sys2Proof.Machine

/-- One step: the port performs its oldest input (20_memory.md R60). -/
def step (s : State) : Host.Outcome State Fault Refusal := portStep s

/-- `s` with a CMD write of the command word `w` as the port's oldest input. The block fetches nothing (10_state.md
R21): the host's sequence of CMD writes is the program, so this is the host issuing that command next (log 12). -/
def State.withFetchWord (s : State) (nbits w : Nat) : State :=
  s.withInput
    (.write (s.params.base + WindowReg.cmd.offset) (bytesOfWord (BitVec.ofNat 64 (w % 2 ^ nbits))))

end Sys2Proof.Machine
end

