-- ==== Sys2Proof/Machine/Asm.lean ====
section
/-! DEFINITION. The host-side assembly notation (30_encoding.md R76, R77): each statement is one input of the port. A
host program's loops and variables are the host's (R76), so a program here is a list of statements (log 18). -/

namespace Sys2Proof.Machine

/-- One statement of R76. -/
inductive Stmt where
  /-- `wr OPA, v` -/
  | wrOpa (v : Word)
  /-- `wr OPB, v` -/
  | wrOpb (v : Word)
  /-- `<MNEMONIC>` -/
  | command (i : Instr)
  /-- `rd <REG>` -/
  | rd (r : WindowReg)
  /-- `wr CMD, v`: any command word, legal or not. -/
  | wrCmd (v : Word)
  /-- `reset`: the platform asserts reset. -/
  | reset
deriving DecidableEq, Repr

/-- A 64-bit host write of a window register. -/
def writeOf (p : Params) (r : WindowReg) (v : Word) : Input := .write (p.base + r.offset) (bytesOfWord v)

/-- A 64-bit host read of a window register. -/
def readOf (p : Params) (r : WindowReg) : Input := .read (p.base + r.offset) 8

/-- The input a statement stands for (R76). -/
def inputOf (p : Params) : Stmt → Input
  | .wrOpa v => writeOf p .opa v
  | .wrOpb v => writeOf p .opb v
  | .command i => writeOf p .cmd (encode i)
  | .rd r => readOf p r
  | .wrCmd v => writeOf p .cmd v
  | .reset => .reset

/-- The mnemonics of R72. -/
def mnemonic : Instr → String
  | .popcnt => "POPCNT"
  | .rank1 => "RANK1"
  | .rank0 => "RANK0"
  | .select1 => "SELECT1"
  | .select0 => "SELECT0"
  | .clz => "CLZ"
  | .ctz => "CTZ"
  | .dvCount => "DV_COUNT"
  | .dvRank1 => "DV_RANK1"
  | .dvRank0 => "DV_RANK0"
  | .dvSelect1 => "DV_SELECT1"
  | .dvSelect0 => "DV_SELECT0"
  | .dvSelects => "DV_SELECTS"
  | .dvInsert => "DV_INSERT"
  | .dvRemove => "DV_REMOVE"
  | .dvTest => "DV_TEST"
  | .dvReadw => "DV_READW"
  | .dvClear => "DV_CLEAR"

/-- The command a mnemonic names. -/
def ofMnemonic (m : String) : Option Instr :=
  [Instr.popcnt, .rank1, .rank0, .select1, .select0, .clz, .ctz, .dvCount, .dvRank1, .dvRank0, .dvSelect1,
    .dvSelect0, .dvSelects, .dvInsert, .dvRemove, .dvTest, .dvReadw, .dvClear].find? (fun i => mnemonic i == m)

/-- The value of one digit, in decimal or hexadecimal. DESIGN CHOICE (log 18): R76 does not say which case hexadecimal
digits have; either is read. -/
def digitValue (base : Nat) (ch : Char) : Option Nat :=
  let d :=
    if '0' ≤ ch ∧ ch ≤ '9' then ch.toNat - '0'.toNat
    else if 'A' ≤ ch ∧ ch ≤ 'F' then ch.toNat - 'A'.toNat + 10
    else if 'a' ≤ ch ∧ ch ≤ 'f' then ch.toNat - 'a'.toNat + 10
    else base
  if d < base then some d else none

/-- A run of digits, underscores ignored (R76). -/
def digits (base : Nat) : List Char → Nat → Option Nat
  | [], acc => some acc
  | ch :: cs, acc =>
    if ch = '_' then digits base cs acc
    else
      match digitValue base ch with
      | some d => digits base cs (base * acc + d)
      | none => none

/-- A run of digits that holds at least one digit. DESIGN CHOICE (log 18): R76 ignores underscores and does not say what
a number without any digit is; here it is none. -/
def number (base : Nat) (cs : List Char) : Option Nat :=
  if cs.all (fun ch => ch = '_') then none else digits base cs 0

/-- A value (R76): decimal, or hexadecimal with the prefix `0x`. DESIGN CHOICE (log 18), where R76 is silent: a number of
no digits is no value, whether empty (the empty text, `0x`) or made only of underscores (`_`, `0x_`); the two characters
of the prefix stand first and together; a value of 2^64 or more is none, since a register holds 64 bits. -/
def value (cs : List Char) : Option Word :=
  let n :=
    match cs with
    | '0' :: 'x' :: ds => number 16 ds
    | ds => number 10 ds
  match n with
  | some v => if v < 2 ^ 64 then some (BitVec.ofNat 64 v) else none
  | none => none

/-- The registers R76's `rd` names. -/
def regOfName (r : String) : Option WindowReg :=
  if r = "RES" then some .res
  else if r = "STATUS" then some .status
  else if r = "DVLEN" then some .dvlen
  else if r = "CFG" then some .cfg
  else if r = "OPA" then some .opa
  else if r = "OPB" then some .opb
  else none

/-- A statement from its words, the comma after a register's name left out (R76). -/
def statement : List String → Option Stmt
  | [w] => if w = "reset" then some .reset else (ofMnemonic w).map .command
  | [w, r] => if w = "rd" then (regOfName r).map .rd else none
  | [w, r, v] =>
    if w = "wr" then
      if r = "OPA" then (value v.toList).map .wrOpa
      else if r = "OPB" then (value v.toList).map .wrOpb
      else if r = "CMD" then (value v.toList).map .wrCmd
      else none
    else none
  | _ => none

/-- A pseudo-instruction of R77. -/
inductive Pseudo where
  /-- `<MNEMONIC> a` -/
  | one (i : Instr) (a : Word)
  /-- `<MNEMONIC> a, b` -/
  | two (i : Instr) (a b : Word)
  /-- `RANK a, i` -/
  | rank (a i : Word)
  /-- `SELECT a, c` -/
  | select (a c : Word)
deriving DecidableEq, Repr

/-- The expansion of R77; none for a mnemonic that does not take the operands given. -/
def expand : Pseudo → Option (List Stmt)
  | .one i a => if readsA i && !readsB i then some [.wrOpa a, .command i] else none
  | .two i a b => if readsA i && readsB i then some [.wrOpa a, .wrOpb b, .command i] else none
  | .rank a i => some [.wrOpa a, .wrOpb i, .command .rank1]
  | .select a c => some [.wrOpa a, .wrOpb c, .command .select1]

/-- `s` with the inputs of a list of statements appended to what its port is still to receive. -/
def State.load (s : State) (l : List Stmt) : State := s.setInputs (s.inputs ++ l.map (inputOf s.params))

end Sys2Proof.Machine
end

