-- ==== Sys2Proof/Machine/Strategies.lean ====
section
/-! DEFINITION. Two realisations the spec describes beside its rules: the binary search of DV_SELECTS
(41_dense_query.md R125) and the broadword algorithm of 40_word_kernel.md §4, which is informative. No meaning calls
them: R125 and R103 fix the results. They stand here so that their agreement with the rules can be stated (log 16). -/

namespace Sys2Proof.Machine

/-- The least `q` in `[lo, hi]` with `c < f (q + 1)`, or `hi`, by halving the interval at most `n` times; `f` is
monotonic. -/
def leastPassing (f : Nat → Nat) (c : Nat) : Nat → Nat → Nat → Nat
  | 0, lo, _ => lo
  | n + 1, lo, hi =>
    if hi ≤ lo then lo
    else if c < f ((lo + hi) / 2 + 1) then leastPassing f c n lo ((lo + hi) / 2)
    else leastPassing f c n ((lo + hi) / 2 + 1) hi

/-- "binary search over the monotonic `rank1` function to find the boundary ..., then a direct bit test" (R125). -/
def binarySearchSelect (s : State) (c : Nat) : Option Nat :=
  let q := leastPassing (dvRankValue s) c (64 * s.dvlen) 0 (64 * s.dvlen)
  if dvBit s q then some q else none

/-- `M1` of §4: alternate bits. -/
def bwM1 : Word := 0x5555_5555_5555_5555#64
/-- `M2` of §4: 4-bit lane sums. -/
def bwM2 : Word := 0x3333_3333_3333_3333#64
/-- `M4` of §4: 8-bit lane sums. -/
def bwM4 : Word := 0x0F0F_0F0F_0F0F_0F0F#64
/-- `L8` of §4: one in every byte. -/
def bwL8 : Word := 0x0101_0101_0101_0101#64
/-- `H8` of §4: the top bit of every byte. -/
def bwH8 : Word := 0x8080_8080_8080_8080#64
/-- `SPR` of §4: byte `j` keeps bit `j`. -/
def bwSPR : Word := 0x8040_2010_0804_0201#64

/-- `bytecounts(w)` of §4: byte `j` is the count of byte `j` of `w`. -/
def bwByteCounts (w : Word) : Word :=
  let s1 := w - ((w >>> 1) &&& bwM1)
  let s2 := (s1 &&& bwM2) + ((s1 >>> 2) &&& bwM2)
  (s2 + (s2 >>> 4)) &&& bwM4

/-- `count(w)` of §4: `(bytecounts(w) * L8) >> 56`. -/
def bwCount (w : Word) : Word := (bwByteCounts w * bwL8) >>> 56

/-- `select1_raw(w, c)` of §4, for `c < count(w)`. -/
def bwSelectRaw (w c : Word) : Word :=
  let sums := bwByteCounts w * bwL8
  let ge := (((c * bwL8) ||| bwH8) - sums) &&& bwH8
  let place := 8#64 * bwCount ge
  let r := c - (((sums <<< 8) >>> place.toNat) &&& 0xFF#64)
  let b := (w >>> place.toNat) &&& 0xFF#64
  let sp := (b * bwL8) &&& bwSPR
  let nz := ((((sp ||| bwH8) - bwL8) ||| sp) &&& bwH8) >>> 7
  let bsums := nz * bwL8
  let ge2 := (((r * bwL8) ||| bwH8) - bsums) &&& bwH8
  place + bwCount ge2

end Sys2Proof.Machine
end

