-- ==== Sys2Proof/WellFormed.lean ====
section
/-! DEFINITION. Well-formedness of commands and of parameter records. -/

namespace Sys2Proof

/-- A command has no operand field that could be out of range (30_encoding.md R70): each is well-formed. -/
def Instr.wellFormed : Instr → Bool
  | .popcnt => true
  | .rank1 => true
  | .rank0 => true
  | .select1 => true
  | .select0 => true
  | .clz => true
  | .ctz => true
  | .dvCount => true
  | .dvRank1 => true
  | .dvRank0 => true
  | .dvSelect1 => true
  | .dvSelect0 => true
  | .dvSelects => true
  | .dvInsert => true
  | .dvRemove => true
  | .dvTest => true
  | .dvReadw => true
  | .dvClear => true

/-- A legal parameter record: `MAX_WORDS` in [1, 65535] (00_scope.md R6), `P_BASE` a multiple of 0x40
(20_memory.md R50). For an illegal one see log 15. -/
def Params.wellFormed (p : Params) : Bool :=
  decide (1 ≤ p.maxWords) && decide (p.maxWords ≤ 65535) && decide (p.base % 0x40 = 0)

end Sys2Proof
end

