-- ==== Sys2Proof/Safety.lean ====
section
/-! DEFINITION. What a good state is, and the words in which claims are stated: sets of positions counted directly,
with no reference to the machine's own counting functions. -/

namespace Sys2Proof.Machine

/-- The states the rules can reach: legal parameters (00_scope.md R6, 20_memory.md R50), the storage in canonical form,
every nonzero DV word below DVLEN (10_state.md R32), DVLEN at most MAX_WORDS (R30). -/
abbrev State.Inv (s : State) : Prop :=
  s.params.wellFormed = true ∧ Memory.wf s.dv = true ∧ Memory.below s.dvlen s.dv = true ∧
    s.dvlen ≤ s.params.maxWords

/-- Every command so far ran (60_exceptions.md R164, 70_reset_and_hazards.md R184): "STATUS.ERR = 0 at the end". -/
abbrev State.clean (s : State) : Prop := s.err = .none

/-- The number of positions `p < n` at which `f p` is true. -/
def setBelow (f : Nat → Bool) (n : Nat) : Nat := ((Finset.range n).filter (fun p => f p = true)).card

/-- The number of positions `p < n` at which `f p` is false. -/
def clearBelow (f : Nat → Bool) (n : Nat) : Nat := ((Finset.range n).filter (fun p => f p = false)).card

/-- 41_dense_query.md R127's `ones(k)`, from the stored words. -/
def onesSpec (s : State) (k : Nat) : Nat :=
  ∑ j ∈ Finset.range (min k s.dvlen), setBelow (fun p => (Memory.read s.dv j).getLsbD p) 64

/-- The command words R72 lists, as numbers. -/
abbrev listedOpcode (n : Nat) : Prop :=
  (0x01 ≤ n ∧ n ≤ 0x07) ∨ (0x10 ≤ n ∧ n ≤ 0x15) ∨ (0x20 ≤ n ∧ n ≤ 0x24)

/-- DV_INSERT of each position in turn, the host writing OPA before each. -/
def insertAll : List Nat → State → Host.Outcome State Fault Refusal
  | [], s => .next s
  | i :: is, s =>
    match exec .dvInsert (s.setOpa (zext64 i)) with
    | .next t => insertAll is t
    | .fault r => .fault r
    | .refused r => .refused r

end Sys2Proof.Machine
end

