-- ==== Sys2Proof/Certificates/Slice0/Obligations.lean ====
section
/-! DEFINITION. The statements for the provers. Results are stated over sets of positions (`setBelow`, `clearBelow`,
`onesSpec` of Safety.lean), not over the machine's own counting and searching functions. `s.withInput e` is a state
whose port performs `e` next: every state with a waiting input is of that form. An equation with `{ s with ... }` says
also that the model's own fields keep their values: `inputs` (log 1), `replies` (log 2), `params` (log 3). A clause about
`exec` from a state with a fault recorded rests on log 14: the rules speak of the CMD write there. -/

open Sys2Proof Sys2Proof.Machine

/-! ### Encoding and decoding -/

/-- 30_encoding.md R70, R71, R75: a 64-bit value is decoded as a command exactly when it is that command's word; so
encoding and decoding agree both ways on all 2^64 values. On the bus the word is its eight bytes (20_memory.md R55),
and whatever follows them is left over. -/
def Obligations.DecodeAndEncodeAgree : Prop :=
  (∀ (v : Word) (i : Instr), decodeWord v = .ok i ↔ v = encode i) ∧
  (∀ (v : Word) (rest : List Byte) (i : Instr),
    decodeBytes (bytesOfWord v ++ rest) = .ok (i, rest) ↔ v = encode i)

/-- R71, R72, R74, D26: a value is a command exactly when it is one of the listed opcodes, as a number; otherwise it is
rejected, by the reserved bits when one of bits 63:8 is set, else by the opcode. -/
def Obligations.OnlyListedOpcodesDecode : Prop :=
  ∀ v : Word,
    ((∃ i, decodeWord v = .ok i) ↔ listedOpcode v.toNat) ∧
    (decodeWord v = .error .reservedBits ↔ 256 ≤ v.toNat) ∧
    (decodeWord v = .error .reservedOpcode ↔ v.toNat < 256 ∧ ¬ listedOpcode v.toNat)

/-- R72: the opcode of every row of the table, and four words of 95_test_vectors.md §2.6 that are no command. -/
def Obligations.OpcodeTableWords : Prop :=
  [Instr.popcnt, .rank1, .rank0, .select1, .select0, .clz, .ctz].map encode =
    [0x01#64, 0x02#64, 0x03#64, 0x04#64, 0x05#64, 0x06#64, 0x07#64] ∧
  [Instr.dvCount, .dvRank1, .dvRank0, .dvSelect1, .dvSelect0, .dvSelects].map encode =
    [0x10#64, 0x11#64, 0x12#64, 0x13#64, 0x14#64, 0x15#64] ∧
  [Instr.dvInsert, .dvRemove, .dvTest, .dvReadw, .dvClear].map encode =
    [0x20#64, 0x21#64, 0x22#64, 0x23#64, 0x24#64] ∧
  decodeWord 0x0000_0000_0000_0012#64 = .ok .dvRank0 ∧
  decodeWord 0x0000_0000_0000_0020#64 = .ok .dvInsert ∧
  decodeWord 0x0000_0000_0000_0000#64 = .error .reservedOpcode ∧
  decodeWord 0x0000_0000_0000_0016#64 = .error .reservedOpcode ∧
  decodeWord 0x0000_0000_0000_0101#64 = .error .reservedBits ∧
  decodeWord 0x8000_0000_0000_0001#64 = .error .reservedBits

/-! ### The step, the checks of a CMD write, faults and lockout -/

/-- 10_state.md R20, 20_memory.md R60: a write of CMD whose eight bytes decode to `i` makes the step run `i` on the
state with that input taken from the port; nothing else is added around it. That the write waits in a list is logs 1 and
12, that `exec` of a locked state changes nothing is log 14. -/
def Obligations.StepRunsDecodedCommand : Prop :=
  (∀ (s : State) (bytes : List Byte) (i : Instr), decodeBytes bytes = .ok (i, []) →
    step (s.withInput (.write (s.params.base + 0x00) bytes)) = exec i s) ∧
  (∀ (s : State) (i : Instr), step (s.withFetchWord 64 (encode i).toNat) = exec i s)

/-- 60_exceptions.md R161, R74: a CMD write of a value that is no command, with no fault recorded, writes ERR = ILLEGAL
and nothing else. -/
def Obligations.IllegalWordRaisesIllegal : Prop :=
  ∀ (s : State) (v : Word), s.err = .none → ¬ listedOpcode v.toNat →
    step (s.withInput (.write (s.params.base + 0x00) (bytesOfWord v))) = .next { s with err := .illegal }

/-- R160, R162: with no fault recorded, which CMD writes leave which code, for every 64-bit value: ILLEGAL exactly for
a value that is no command, OPERAND exactly for RANK1 and RANK0 with OPB > 64, CAPACITY exactly for DV_INSERT with
OPA >= 64 * MAX_WORDS, and no fault in every other case. -/
def Obligations.ErrorCausesExactly : Prop :=
  ∀ (s t : State) (v : Word), s.err = .none →
    step (s.withInput (.write (s.params.base + 0x00) (bytesOfWord v))) = .next t →
    (t.err = .illegal ↔ ¬ listedOpcode v.toNat) ∧
    (t.err = .operand ↔ (v = 0x02#64 ∨ v = 0x03#64) ∧ 64 < s.opb.toNat) ∧
    (t.err = .capacity ↔ v = 0x20#64 ∧ 64 * s.params.maxWords ≤ s.opa.toNat)

/-- R163: a command that raises an error changes STATUS.ERR and nothing else. -/
def Obligations.FaultIsPrecise : Prop :=
  ∀ (s t : State) (v : Word), s.err = .none →
    step (s.withInput (.write (s.params.base + 0x00) (bytesOfWord v))) = .next t → t.err ≠ .none →
    t = { s with err := t.err }

/-- R164: while ERR is not 0 every CMD write changes nothing; reads of every register and writes of OPA and OPB go on;
and a step leaves ERR = 0 exactly when it is reset. Two clauses are the model's: that each command, run by `exec`, is
refused as its CMD write is (log 14, DEDUCED), and that a read is answered in the list `replies` (log 2). -/
def Obligations.LockoutUntilReset : Prop :=
  ∀ s : State, s.err ≠ .none →
    (∀ v : Word, step (s.withInput (.write (s.params.base + 0x00) (bytesOfWord v))) = .next s) ∧
    (∀ i : Instr, exec i s = .next s) ∧
    (∀ v : Word, step (s.withInput (.write (s.params.base + 0x08) (bytesOfWord v))) = .next { s with opa := v } ∧
      step (s.withInput (.write (s.params.base + 0x10) (bytesOfWord v))) = .next { s with opb := v }) ∧
    (∀ r : WindowReg, step (s.withInput (.read (s.params.base + r.offset) 8)) =
      .next { s with replies := s.replies ++ [readReg s r] }) ∧
    (∀ (e : Input) (t : State), step (s.withInput e) = .next t →
      (e = .reset → t.err = .none) ∧ (e ≠ .reset → t.err = s.err))

/-- R27: along any step ERR keeps its value, unless it was NONE or the step is reset. -/
def Obligations.ErrIsSticky : Prop :=
  ∀ s t : State, step s = .next t → t.err = s.err ∨ s.err = .none ∨ s.inputs.head? = some .reset

/-- R162, R164, R165: every command answers a next state from every state: no command stops the machine, and none is
refused a meaning. R107, R128, R184: it keeps OPA and OPB, completed or not. The rest is the model's: that the port's
lists `inputs` and `replies` (logs 1, 2) and the parameters (log 3) are kept, and that `exec` itself, and not only the
CMD write, answers from a state with a fault recorded (log 14, DEDUCED). -/
def Obligations.EveryCommandAnswers : Prop :=
  ∀ (i : Instr) (s : State), ∃ t, exec i s = .next t ∧ t.inputs = s.inputs ∧ t.replies = s.replies ∧
    t.params = s.params ∧ t.opa = s.opa ∧ t.opb = s.opb

/-! ### The word kernel -/

/-- 40_word_kernel.md R100: POPCNT. -/
def Obligations.PopcntCountsSetBits : Prop :=
  encode .popcnt = 0x01#64 ∧
  (∀ s : State, s.err = .none →
    exec .popcnt s = .next { s with res := BitVec.ofNat 64 (setBelow s.opa.getLsbD 64), nf := false } ∧
    setBelow s.opa.getLsbD 64 ≤ 64) ∧
  setBelow (0#64).getLsbD 64 = 0 ∧
  setBelow (0xFFFF_FFFF_FFFF_FFFF#64).getLsbD 64 = 64 ∧
  setBelow (0x0000_0000_0005_4A55#64).getLsbD 64 = 9

/-- R101: RANK1 counts the set bits in positions [0, OPB) for OPB <= 64, and faults OPERAND above; OPB = 64 gives the
population count, and the rank does not fall as the position rises. -/
def Obligations.RankOneCountsSetBitsBelow : Prop :=
  encode .rank1 = 0x02#64 ∧
  (∀ s : State, s.err = .none → s.opb.toNat ≤ 64 →
    exec .rank1 s =
      .next { s with res := BitVec.ofNat 64 (setBelow s.opa.getLsbD s.opb.toNat), nf := false } ∧
    setBelow s.opa.getLsbD s.opb.toNat = setBelow (s.opa &&& BitVec.ofNat 64 (2 ^ s.opb.toNat - 1)).getLsbD 64 ∧
    (∀ j, s.opb.toNat ≤ j → j ≤ 64 → setBelow s.opa.getLsbD s.opb.toNat ≤ setBelow s.opa.getLsbD j)) ∧
  (∀ s : State, s.err = .none → 64 < s.opb.toNat → exec .rank1 s = .next { s with err := .operand }) ∧
  setBelow (0x0000_0000_0005_4A55#64).getLsbD 16 = 7

/-- R102: RANK0 is OPB less the set bits below it, which is the number of clear bits below it. -/
def Obligations.RankZeroCountsClearBitsBelow : Prop :=
  encode .rank0 = 0x03#64 ∧
  (∀ s : State, s.err = .none → s.opb.toNat ≤ 64 →
    exec .rank0 s =
      .next { s with res := BitVec.ofNat 64 (s.opb.toNat - setBelow s.opa.getLsbD s.opb.toNat), nf := false } ∧
    setBelow s.opa.getLsbD s.opb.toNat ≤ s.opb.toNat ∧
    s.opb.toNat - setBelow s.opa.getLsbD s.opb.toNat = clearBelow s.opa.getLsbD s.opb.toNat) ∧
  (∀ s : State, s.err = .none → 64 < s.opb.toNat → exec .rank0 s = .next { s with err := .operand }) ∧
  clearBelow (0x0000_0000_0005_4A55#64).getLsbD 16 = 9

/-- R103: SELECT1 answers NOTFOUND with NF = 1 when OPB is at least the count; otherwise there is exactly one set
position of that rank, and it answers that one with NF = 0. -/
def Obligations.SelectOneFindsTheRankedSetBit : Prop :=
  encode .select1 = 0x04#64 ∧
  (∀ s : State, s.err = .none → setBelow s.opa.getLsbD 64 ≤ s.opb.toNat →
    exec .select1 s = .next { s with res := 0xFFFF_FFFF_FFFF_FFFF#64, nf := true }) ∧
  (∀ s : State, s.err = .none → s.opb.toNat < setBelow s.opa.getLsbD 64 →
    ∃ p < 64, exec .select1 s = .next { s with res := BitVec.ofNat 64 p, nf := false } ∧
      s.opa.getLsbD p = true ∧ setBelow s.opa.getLsbD p = s.opb.toNat ∧
      ∀ q < 64, s.opa.getLsbD q = true → setBelow s.opa.getLsbD q = s.opb.toNat → q = p)

/-- R104: SELECT0 does the same for the clear bits. -/
def Obligations.SelectZeroFindsTheRankedClearBit : Prop :=
  encode .select0 = 0x05#64 ∧
  (∀ s : State, s.err = .none → clearBelow s.opa.getLsbD 64 ≤ s.opb.toNat →
    exec .select0 s = .next { s with res := 0xFFFF_FFFF_FFFF_FFFF#64, nf := true }) ∧
  (∀ s : State, s.err = .none → s.opb.toNat < clearBelow s.opa.getLsbD 64 →
    ∃ p < 64, exec .select0 s = .next { s with res := BitVec.ofNat 64 p, nf := false } ∧
      s.opa.getLsbD p = false ∧ clearBelow s.opa.getLsbD p = s.opb.toNat ∧
      ∀ q < 64, s.opa.getLsbD q = false → clearBelow s.opa.getLsbD q = s.opb.toNat → q = p)

/-- R105: CLZ answers the number `n` of clear bits above the highest set bit: the top `n` bits are clear, and bit
63 - n is set, when there is one; 64 for the zero word; the formula over SELECT1 holds for every other word. -/
def Obligations.ClzCountsLeadingZeros : Prop :=
  encode .clz = 0x06#64 ∧
  (∀ s : State, s.err = .none →
    ∃ n ≤ 64, exec .clz s = .next { s with res := BitVec.ofNat 64 n, nf := false } ∧
      (∀ j < 64, 64 - n ≤ j → s.opa.getLsbD j = false) ∧
      (s.opa = 0#64 → n = 64) ∧
      (s.opa ≠ 0#64 → n < 64 ∧ s.opa.getLsbD (63 - n) = true ∧
        setBelow s.opa.getLsbD (63 - n) = setBelow s.opa.getLsbD 64 - 1))

/-- R106: CTZ answers the number `n` of clear bits below the lowest set bit; 64 for the zero word. -/
def Obligations.CtzCountsTrailingZeros : Prop :=
  encode .ctz = 0x07#64 ∧
  (∀ s : State, s.err = .none →
    ∃ n ≤ 64, exec .ctz s = .next { s with res := BitVec.ofNat 64 n, nf := false } ∧
      (∀ j < n, s.opa.getLsbD j = false) ∧
      (s.opa = 0#64 → n = 64) ∧
      (s.opa ≠ 0#64 → n < 64 ∧ s.opa.getLsbD n = true ∧ setBelow s.opa.getLsbD n = 0))

/-- R108: the six laws of the word commands, each about what the commands answer. -/
def Obligations.WordKernelLaws : Prop :=
  (∀ s : State, s.err = .none → s.opb.toNat ≤ 64 →
    ∃ t1 t0, exec .rank1 s = .next t1 ∧ exec .rank0 s = .next t0 ∧ t1.res + t0.res = s.opb) ∧
  (∀ s : State, s.err = .none → s.opb = 64#64 →
    ∃ t u, exec .rank1 s = .next t ∧ exec .popcnt s = .next u ∧ t.res = u.res) ∧
  (∀ s : State, s.err = .none → s.opb.toNat < setBelow s.opa.getLsbD 64 →
    ∃ t u, exec .select1 s = .next t ∧ exec .rank1 { s with opb := t.res } = .next u ∧ u.res = s.opb ∧
      u.err = .none) ∧
  (∀ s : State, s.err = .none → setBelow s.opa.getLsbD 64 ≤ s.opb.toNat →
    ∃ t, exec .select1 s = .next t ∧ t.res = 0xFFFF_FFFF_FFFF_FFFF#64 ∧ t.nf = true) ∧
  (∀ (s : State) (i j : Word), s.err = .none → i.toNat ≤ j.toNat → j.toNat ≤ 64 →
    ∃ t u, exec .rank1 { s with opb := i } = .next t ∧ exec .rank1 { s with opb := j } = .next u ∧
      t.res.toNat ≤ u.res.toNat) ∧
  (∀ s : State, s.err = .none →
    ∃ t u, exec .select0 s = .next t ∧ exec .select1 { s with opa := ~~~ s.opa } = .next u ∧
      t.res = u.res ∧ t.nf = u.nf)

/-- R107: a word-kernel command that completes changes RES and NF only; one that raises an error changes ERR only; and
it reads no state but its operands: two states with the same OPA and OPB and no fault recorded get the same RES, NF
and ERR, but for the RES and NF an error leaves as they were. -/
def Obligations.WordKernelTouchesOnlyResult : Prop :=
  ∀ i ∈ [Instr.popcnt, .rank1, .rank0, .select1, .select0, .clz, .ctz],
    (∀ s t : State, exec i s = .next t →
      t = { s with res := t.res, nf := t.nf, err := t.err } ∧ (t.err ≠ s.err → t.res = s.res ∧ t.nf = s.nf)) ∧
    (∀ s s' t : State, s.err = .none → s'.err = .none → s'.opa = s.opa → s'.opb = s.opb → exec i s = .next t →
      exec i s' = .next (if t.err = .none then { s' with res := t.res, nf := t.nf } else { s' with err := t.err }))

/-- 30_encoding.md R73, 10_state.md R23: OPB does not affect a command that does not name it, nor OPA the two commands
that take no operand. -/
def Obligations.UnreadOperandsDoNotMatter : Prop :=
  (∀ i ∈ [Instr.popcnt, .clz, .ctz, .dvCount, .dvRank1, .dvRank0, .dvSelect1, .dvSelect0, .dvSelects, .dvInsert,
      .dvRemove, .dvTest, .dvReadw, .dvClear],
    ∀ (s t : State) (v : Word), exec i s = .next t → exec i { s with opb := v } = .next { t with opb := v }) ∧
  (∀ i ∈ [Instr.dvCount, .dvClear],
    ∀ (s t : State) (v : Word), exec i s = .next t → exec i { s with opa := v } = .next { t with opa := v })

/-! ### Dense queries -/

/-- 41_dense_query.md R120: DV_COUNT answers the sum of the counts of the first DVLEN words, which is the number of set
positions of the vector; the empty vector gives 0; it is at most CAP_BITS, and a vector of all-ones words reaches 64
times its length, so a full one reaches CAP_BITS. -/
def Obligations.DvCountSumsTheWords : Prop :=
  encode .dvCount = 0x10#64 ∧
  (∀ s : State, s.err = .none →
    exec .dvCount s = .next { s with res := BitVec.ofNat 64 (onesSpec s s.dvlen), nf := false } ∧
    onesSpec s s.dvlen = setBelow (dvBit s) (64 * s.dvlen) ∧
    (s.dvlen = 0 → onesSpec s s.dvlen = 0) ∧
    (s.dvlen ≤ s.params.maxWords → onesSpec s s.dvlen ≤ 64 * s.params.maxWords) ∧
    ((∀ k < s.dvlen, Memory.read s.dv k = 0xFFFF_FFFF_FFFF_FFFF#64) → onesSpec s s.dvlen = 64 * s.dvlen))

/-- R121: DV_RANK1 answers `ones(k) + count(DVRead(k) & mask(b))`, which is the number of set positions below OPA, for
every OPA; at and past the length that is the total. -/
def Obligations.DvRankOneCountsSetPositionsBelow : Prop :=
  encode .dvRank1 = 0x11#64 ∧
  (∀ s : State, s.err = .none →
    exec .dvRank1 s = .next { s with
      res := BitVec.ofNat 64 (onesSpec s (s.opa.toNat / 64) +
        setBelow (dvRead s (s.opa.toNat / 64)).getLsbD (s.opa.toNat % 64)),
      nf := false } ∧
    onesSpec s (s.opa.toNat / 64) + setBelow (dvRead s (s.opa.toNat / 64)).getLsbD (s.opa.toNat % 64) =
      setBelow (dvBit s) s.opa.toNat ∧
    (64 * s.dvlen ≤ s.opa.toNat → setBelow (dvBit s) s.opa.toNat = onesSpec s s.dvlen))

/-- R122: DV_RANK0 answers OPA less the value of R121, which is the number of clear positions below OPA, those past the
length included. -/
def Obligations.DvRankZeroCountsClearPositionsBelow : Prop :=
  encode .dvRank0 = 0x12#64 ∧
  (∀ s : State, s.err = .none →
    exec .dvRank0 s = .next { s with
      res := BitVec.ofNat 64 (s.opa.toNat - setBelow (dvBit s) s.opa.toNat), nf := false } ∧
    setBelow (dvBit s) s.opa.toNat ≤ s.opa.toNat ∧
    s.opa.toNat - setBelow (dvBit s) s.opa.toNat = clearBelow (dvBit s) s.opa.toNat ∧
    (64 * s.dvlen ≤ s.opa.toNat →
      s.opa.toNat - setBelow (dvBit s) s.opa.toNat = s.opa.toNat - onesSpec s s.dvlen))

/-- R123: DV_SELECT1 answers NOTFOUND with NF = 1 when OPA is at least the total; otherwise `64k + p`, `k` the least
word index with `ones(k+1) > c` and `p` the set bit of DV[k] of rank `c - ones(k)`; that position is set and has
rank `c`. -/
def Obligations.DvSelectOneFindsTheRankedSetPosition : Prop :=
  encode .dvSelect1 = 0x13#64 ∧
  (∀ s : State, s.err = .none → onesSpec s s.dvlen ≤ s.opa.toNat →
    exec .dvSelect1 s = .next { s with res := 0xFFFF_FFFF_FFFF_FFFF#64, nf := true }) ∧
  (∀ s : State, s.err = .none → s.opa.toNat < onesSpec s s.dvlen →
    ∃ k < s.dvlen, ∃ p < 64, exec .dvSelect1 s = .next { s with res := BitVec.ofNat 64 (64 * k + p), nf := false } ∧
      s.opa.toNat < onesSpec s (k + 1) ∧ (∀ j < k, onesSpec s (j + 1) ≤ s.opa.toNat) ∧
      (Memory.read s.dv k).getLsbD p = true ∧
      setBelow (Memory.read s.dv k).getLsbD p = s.opa.toNat - onesSpec s k ∧
      dvBit s (64 * k + p) = true ∧ setBelow (dvBit s) (64 * k + p) = s.opa.toNat)

/-- R124: DV_SELECT0 does the same for clear bits, over the first `L` words, where `L` is DVLEN or MAX_WORDS as
P_SELECT0_LIMIT says, under both settings. -/
def Obligations.DvSelectZeroFindsTheRankedClearPosition : Prop :=
  encode .dvSelect0 = 0x14#64 ∧
  (∀ (s : State) (L : Nat), s.err = .none →
    L = (if s.params.select0Limit = .length then s.dvlen else s.params.maxWords) →
    (64 * L - onesSpec s L ≤ s.opa.toNat →
      exec .dvSelect0 s = .next { s with res := 0xFFFF_FFFF_FFFF_FFFF#64, nf := true }) ∧
    (s.opa.toNat < 64 * L - onesSpec s L →
      ∃ k < L, ∃ p < 64,
        exec .dvSelect0 s = .next { s with res := BitVec.ofNat 64 (64 * k + p), nf := false } ∧
        s.opa.toNat < 64 * (k + 1) - onesSpec s (k + 1) ∧
        (∀ j < k, 64 * (j + 1) - onesSpec s (j + 1) ≤ s.opa.toNat) ∧
        (dvRead s k).getLsbD p = false ∧
        clearBelow (dvRead s k).getLsbD p = s.opa.toNat - (64 * k - onesSpec s k) ∧
        dvBit s (64 * k + p) = false ∧ clearBelow (dvBit s) (64 * k + p) = s.opa.toNat))

/-- R125, D11: DV_SELECTS answers, for `c` below the total, the least `q` with `c + 1` set positions below `q + 1`, and
otherwise NOTFOUND with NF = 1; and what it answers is what DV_SELECT1 answers, for every `c`. -/
def Obligations.DvSelectsFindsTheBoundary : Prop :=
  encode .dvSelects = 0x15#64 ∧
  (∀ s : State, exec .dvSelects s = exec .dvSelect1 s) ∧
  (∀ s : State, s.err = .none → onesSpec s s.dvlen ≤ s.opa.toNat →
    exec .dvSelects s = .next { s with res := 0xFFFF_FFFF_FFFF_FFFF#64, nf := true }) ∧
  (∀ s : State, s.err = .none → s.opa.toNat < onesSpec s s.dvlen →
    ∃ q, exec .dvSelects s = .next { s with res := BitVec.ofNat 64 q, nf := false } ∧
      setBelow (dvBit s) (q + 1) = s.opa.toNat + 1 ∧
      ∀ r, setBelow (dvBit s) (r + 1) = s.opa.toNat + 1 → q ≤ r)

/-- R125, R129 law 1: the binary search over the rank function and the linear search give the same result, for every
state and every `c`. The bounds and the halving of the search are the model's (log 16). -/
def Obligations.BinarySearchAgreesWithLinearSelect : Prop :=
  ∀ (s : State) (c : Nat), binarySearchSelect s c = dvSelectOne s c

/-- R129: the laws of the dense queries, each about what the commands answer. Law 3 needs the invariant: without it
DVLEN could be too large for a position to fit in 64 bits. -/
def Obligations.DenseQueryLaws : Prop :=
  (∀ s : State, s.err = .none →
    ∃ t u, exec .dvSelects s = .next t ∧ exec .dvSelect1 s = .next u ∧ t.res = u.res ∧ t.nf = u.nf) ∧
  (∀ s : State, s.err = .none →
    ∃ t1 t0, exec .dvRank1 s = .next t1 ∧ exec .dvRank0 s = .next t0 ∧ t1.res + t0.res = s.opa) ∧
  (∀ s : State, s.Inv → s.err = .none → s.opa.toNat < onesSpec s s.dvlen →
    ∃ t u, exec .dvSelect1 s = .next t ∧ exec .dvRank1 { s with opa := t.res } = .next u ∧ u.res = s.opa) ∧
  (∀ s : State, s.err = .none → s.opa.toNat = 64 * s.dvlen →
    ∃ t u, exec .dvRank1 s = .next t ∧ exec .dvCount s = .next u ∧ t.res = u.res) ∧
  (∀ (s : State) (i j : Word), s.err = .none → i.toNat ≤ j.toNat →
    ∃ t u, exec .dvRank1 { s with opa := i } = .next t ∧ exec .dvRank1 { s with opa := j } = .next u ∧
      t.res.toNat ≤ u.res.toNat)

/-- R128: a dense query changes RES and NF only, and raises no error. -/
def Obligations.DenseQueriesTouchOnlyResult : Prop :=
  ∀ i ∈ [Instr.dvCount, .dvRank1, .dvRank0, .dvSelect1, .dvSelect0, .dvSelects, .dvTest, .dvReadw],
    ∀ s t : State, exec i s = .next t → t = { s with res := t.res, nf := t.nf } ∧
      (∀ k, Memory.read t.dv k = Memory.read s.dv k)

/-- 00_scope.md R10, R7: in a state the rules can reach, counts are at most CAP_BITS, ranks at most their position, and
a found position is below CAP_BITS, as 64-bit results: nothing wraps. -/
def Obligations.ResultsDoNotWrap : Prop :=
  ∀ s t : State, s.Inv → s.err = .none →
    (exec .dvCount s = .next t → t.res.toNat = onesSpec s s.dvlen ∧ t.res.toNat ≤ 64 * s.params.maxWords) ∧
    (exec .dvRank1 s = .next t → t.res.toNat = setBelow (dvBit s) s.opa.toNat ∧ t.res.toNat ≤ s.opa.toNat) ∧
    (exec .dvRank0 s = .next t → t.res.toNat = clearBelow (dvBit s) s.opa.toNat ∧ t.res.toNat ≤ s.opa.toNat) ∧
    (∀ i ∈ [Instr.dvSelect1, .dvSelect0, .dvSelects], exec i s = .next t → t.nf = false →
      t.res.toNat < 64 * s.params.maxWords)

/-- 10_state.md R26: in a state the rules can reach, a command that completes leaves NF = 1 exactly when it is a select
and wrote NOTFOUND. -/
def Obligations.NotFoundFlagMarksFailedSelects : Prop :=
  ∀ (i : Instr) (s t : State), s.Inv → s.err = .none → exec i s = .next t → t.err = .none →
    (t.nf = true ↔
      i ∈ [Instr.select1, .select0, .dvSelect1, .dvSelect0, .dvSelects] ∧ t.res = 0xFFFF_FFFF_FFFF_FFFF#64)

/-! ### Dense storage -/

/-- 42_dense_storage.md R142: DV_INSERT of a position below CAP_BITS: DVLEN becomes the least length that covers it and
the old length; bit `b` of word `k` is set, every other bit and word is as before; RES is 1 less the old bit. A set bit
inserted again leaves DV as it was. At or past CAP_BITS it raises CAPACITY, and nothing else changes. -/
def Obligations.DvInsertSetsTheBit : Prop :=
  encode .dvInsert = 0x20#64 ∧
  (∀ s : State, s.err = .none → s.opa.toNat < 64 * s.params.maxWords →
    ∃ m : Memory,
      exec .dvInsert s = .next { s with
        dv := m, dvlen := max s.dvlen (s.opa.toNat / 64 + 1), nf := false,
        res := BitVec.ofNat 64 (1 - ((Memory.read s.dv (s.opa.toNat / 64)).getLsbD (s.opa.toNat % 64)).toNat) } ∧
      (∀ b < 64, (Memory.read m (s.opa.toNat / 64)).getLsbD b =
        ((Memory.read s.dv (s.opa.toNat / 64)).getLsbD b || decide (b = s.opa.toNat % 64))) ∧
      (∀ k, k ≠ s.opa.toNat / 64 → Memory.read m k = Memory.read s.dv k) ∧
      ((Memory.read s.dv (s.opa.toNat / 64)).getLsbD (s.opa.toNat % 64) = true →
        ∀ k, Memory.read m k = Memory.read s.dv k)) ∧
  (∀ s : State, s.err = .none → 64 * s.params.maxWords ≤ s.opa.toNat →
    exec .dvInsert s = .next { s with err := .capacity })

/-- R143: DV_REMOVE of a position whose word is below the length: bit `b` of word `k` is cleared, every other bit and
word is as before, RES is the old bit; of any other position, RES is 0 and the storage is as before. DVLEN never
changes, and no position faults. -/
def Obligations.DvRemoveClearsTheBit : Prop :=
  encode .dvRemove = 0x21#64 ∧
  (∀ s : State, s.err = .none → Memory.wf s.dv = true → s.opa.toNat / 64 < s.dvlen →
    ∃ m : Memory,
      exec .dvRemove s = .next { s with
        dv := m, nf := false,
        res := BitVec.ofNat 64 ((Memory.read s.dv (s.opa.toNat / 64)).getLsbD (s.opa.toNat % 64)).toNat } ∧
      (∀ b < 64, (Memory.read m (s.opa.toNat / 64)).getLsbD b =
        ((Memory.read s.dv (s.opa.toNat / 64)).getLsbD b && !decide (b = s.opa.toNat % 64))) ∧
      (∀ k, k ≠ s.opa.toNat / 64 → Memory.read m k = Memory.read s.dv k)) ∧
  (∀ s : State, s.err = .none → s.dvlen ≤ s.opa.toNat / 64 →
    exec .dvRemove s = .next { s with nf := false, res := 0#64 })

/-- R144, R140: DV_TEST answers bit `OPA mod 64` of DVRead(OPA div 64): 0 at and past the length. -/
def Obligations.DvTestReadsTheBit : Prop :=
  encode .dvTest = 0x22#64 ∧
  (∀ s : State, s.err = .none → s.opa.toNat < 64 * s.dvlen →
    exec .dvTest s = .next { s with
      res := BitVec.ofNat 64 ((Memory.read s.dv (s.opa.toNat / 64)).getLsbD (s.opa.toNat % 64)).toNat, nf := false }) ∧
  (∀ s : State, s.err = .none → 64 * s.dvlen ≤ s.opa.toNat →
    exec .dvTest s = .next { s with res := 0#64, nf := false })

/-- R145, R140, 20_memory.md R58: DV_READW answers DV[k] below the length, 0 at and past it, for every 64-bit `k`. -/
def Obligations.DvReadwReadsTheWord : Prop :=
  encode .dvReadw = 0x23#64 ∧
  (∀ s : State, s.err = .none → s.opa.toNat < s.dvlen →
    exec .dvReadw s = .next { s with res := Memory.read s.dv s.opa.toNat, nf := false }) ∧
  (∀ s : State, s.err = .none → s.dvlen ≤ s.opa.toNat →
    exec .dvReadw s = .next { s with res := 0#64, nf := false })

/-- R146: DV_CLEAR leaves every DV word 0, DVLEN = 0 and RES = 0, and nothing else changed; with ERR = NONE that is the
vector of the reset state; no other command lowers DVLEN. -/
def Obligations.DvClearEmptiesTheVector : Prop :=
  encode .dvClear = 0x24#64 ∧
  (∀ s : State, s.err = .none →
    ∃ m : Memory, exec .dvClear s = .next { s with dv := m, dvlen := 0, res := 0#64, nf := false } ∧
      (∀ k, Memory.read m k = 0#64) ∧ m = State.reset.dv) ∧
  (∀ (i : Instr) (s t : State), exec i s = .next t → t.dvlen < s.dvlen → i = .dvClear)

/-- R147 laws 1 to 3, in a state the rules can reach: after DV_INSERT DV_TEST gives 1, after DV_REMOVE it gives 0, and
a second DV_INSERT or DV_REMOVE gives RES = 0 and leaves DV, read at every index, as the first left it. -/
def Obligations.InsertRemoveTestLaws : Prop :=
  ∀ s : State, s.Inv → s.err = .none →
    (s.opa.toNat < 64 * s.params.maxWords →
      ∃ t u w, exec .dvInsert s = .next t ∧ exec .dvTest t = .next u ∧ u.res = 1#64 ∧
        exec .dvInsert t = .next w ∧ w.res = 0#64 ∧ w.dv = t.dv ∧ w.dvlen = t.dvlen) ∧
    (∃ t u w, exec .dvRemove s = .next t ∧ exec .dvTest t = .next u ∧ u.res = 0#64 ∧
      exec .dvRemove t = .next w ∧ w.res = 0#64 ∧ w.dv = t.dv ∧ w.dvlen = t.dvlen)

/-- R147 law 4, in a state the rules can reach: DV_INSERT raises the count by its RES, DV_REMOVE lowers it by its RES,
the counts being what DV_COUNT answers before and after. -/
def Obligations.InsertRemoveMoveTheCount : Prop :=
  ∀ s : State, s.Inv → s.err = .none →
    (s.opa.toNat < 64 * s.params.maxWords →
      ∃ a t b, exec .dvCount s = .next a ∧ exec .dvInsert s = .next t ∧ exec .dvCount t = .next b ∧
        b.res.toNat = a.res.toNat + t.res.toNat) ∧
    (∃ a t b, exec .dvCount s = .next a ∧ exec .dvRemove s = .next t ∧ exec .dvCount t = .next b ∧
      a.res.toNat = b.res.toNat + t.res.toNat)

/-- R147 law 5: inserting every position of a list, all below CAP_BITS, into an empty vector gives a vector whose set
positions are exactly those, whose count is their number without repeats, and whose DVLEN is the least that covers the
largest (0 for none). -/
def Obligations.InsertAllBuildsTheSet : Prop :=
  ∀ (s : State) (X : List Nat), s.params.wellFormed = true → s.err = .none → s.dv = [] → s.dvlen = 0 →
    (∀ i ∈ X, i < 64 * s.params.maxWords) →
    ∃ t, insertAll X s = .next t ∧ t.err = .none ∧
      (∀ i, dvBit t i = true ↔ i ∈ X) ∧
      setBelow (dvBit t) (64 * t.dvlen) = X.toFinset.card ∧
      t.dvlen = X.foldr (fun i n => max (i / 64 + 1) n) 0

/-- R65, 20_memory.md R58, 10_state.md R33: a step that changes the storage or its length is reset, or a CMD write of
DV_INSERT, DV_REMOVE or DV_CLEAR with no fault recorded; and the length falls only by DV_CLEAR and reset. -/
def Obligations.StorageChangesOnlyByItsCommands : Prop :=
  ∀ (s t : State) (e : Input), step (s.withInput e) = .next t →
    (t.dv ≠ s.dv ∨ t.dvlen ≠ s.dvlen →
      e = .reset ∨ (s.err = .none ∧
        ∃ bytes, e = .write (s.params.base + 0x00) bytes ∧ wordOfBytes bytes ∈ [0x20#64, 0x21#64, 0x24#64])) ∧
    (t.dvlen < s.dvlen →
      e = .reset ∨ (s.err = .none ∧
        ∃ bytes, e = .write (s.params.base + 0x00) bytes ∧ wordOfBytes bytes = 0x24#64))

/-! ### State, reset and invariants -/

/-- 10_state.md R30, R32 and the canonical form of the storage: from EVERY state that meets the invariant, whatever the
port performs, the next state meets it. -/
def Obligations.InvariantKeptByEveryStep : Prop :=
  ∀ s t : State, s.Inv → step s = .next t → t.Inv

/-- R32: the invariant holds at reset, for every legal parameter record, so at the model's reset state; and it says of
each word at or past the length that it is 0. -/
def Obligations.InvariantHoldsAtReset : Prop :=
  (∀ p : Params, p.wellFormed = true → (State.resetWith p).Inv) ∧ State.reset.Inv ∧
  (∀ (s : State) (k : Nat), s.Inv → s.dvlen ≤ k → Memory.read s.dv k = 0#64)

/-- R36, 70_reset_and_hazards.md R180: reset, from any state, leaves OPA = OPB = RES = 0, STATUS = 0, DVLEN = 0,
every DV word 0, and CFG and CMD reading as ever; and so is the model's reset state. -/
def Obligations.ResetClearsEverything : Prop :=
  (∀ s : State, ∃ t, step (s.withInput .reset) = .next t ∧
    t.opa = 0#64 ∧ t.opb = 0#64 ∧ t.res = 0#64 ∧ readReg t .status = 0#64 ∧ t.nf = false ∧ t.err = .none ∧
    t.dvlen = 0 ∧ (∀ k, Memory.read t.dv k = 0#64) ∧ readReg t .cfg = readReg s .cfg ∧ readReg t .cmd = 0#64) ∧
  (State.reset.opa = 0#64 ∧ State.reset.opb = 0#64 ∧ State.reset.res = 0#64 ∧
    readReg State.reset .status = 0#64 ∧ State.reset.dvlen = 0 ∧ (∀ k, Memory.read State.reset.dv k = 0#64) ∧
    readReg State.reset .cfg = 0x0000_0000_0040_0401#64)

/-- 10_state.md R25 to R27, 60_exceptions.md R160: STATUS has NF in bit 0, ERR in bits 7:4 with the codes 0 to 3, and 0
in every other bit. -/
def Obligations.StatusLayout : Prop :=
  (∀ s : State,
    (readReg s .status).getLsbD 0 = s.nf ∧
    (readReg s .status).extractLsb' 1 3 = 0#3 ∧
    (readReg s .status).extractLsb' 4 4 = s.err.code ∧
    (readReg s .status).extractLsb' 8 56 = 0#56) ∧
  ErrCode.none.code = 0#4 ∧ ErrCode.illegal.code = 1#4 ∧ ErrCode.operand.code = 2#4 ∧ ErrCode.capacity.code = 3#4

/-- R29: CFG has MAX_WORDS in bits 15:0, 0x40 in bits 23:16, S0LIM in bit 24, 0 above, for every legal parameter
record; no step changes it, a host write of it included; at the default parameters it is 0x0040_0401. -/
def Obligations.CfgReportsTheParameters : Prop :=
  (∀ s : State, s.params.wellFormed = true →
    ((readReg s .cfg).extractLsb' 0 16).toNat = s.params.maxWords ∧
    (readReg s .cfg).extractLsb' 16 8 = 0x40#8 ∧
    ((readReg s .cfg).getLsbD 24 = true ↔ s.params.select0Limit = .capacity) ∧
    (readReg s .cfg).extractLsb' 25 39 = 0#39) ∧
  (∀ s t : State, step s = .next t → readReg t .cfg = readReg s .cfg) ∧
  readReg State.reset .cfg = 0x0000_0000_0040_0401#64

/-! ### The host window -/

/-- 20_memory.md R51, R53: a 64-bit read at each of the eight offsets answers that register's value and has no side
effect. -/
def Obligations.ReadsAnswerTheRegisterMap : Prop :=
  ∀ (s : State) (o : Nat) (v : Word),
    (o, v) ∈ [(0x00, 0#64), (0x08, s.opa), (0x10, s.opb), (0x18, s.res), (0x20, statusWord s.nf s.err),
      (0x28, BitVec.ofNat 64 s.dvlen), (0x30, cfgWord s.params), (0x38, 0#64)] →
    step (s.withInput (.read (s.params.base + o) 8)) = .next { s with replies := s.replies ++ [v] }

/-- R51, R53, R54: a 64-bit write replaces all of OPA or OPB and changes nothing else; at every other offset but CMD's
it changes nothing. -/
def Obligations.WritesFollowTheRegisterMap : Prop :=
  ∀ (s : State) (bytes : List Byte), bytes.length = 8 →
    step (s.withInput (.write (s.params.base + 0x08) bytes)) = .next { s with opa := wordOfBytes bytes } ∧
    step (s.withInput (.write (s.params.base + 0x10) bytes)) = .next { s with opb := wordOfBytes bytes } ∧
    (∀ o ∈ [0x18, 0x20, 0x28, 0x30, 0x38], step (s.withInput (.write (s.params.base + o) bytes)) = .next s)

/-- R52, R50: exactly the 64-bit accesses at a multiple of 8 within the window have a step; for every other read or
write the model stops, by name. -/
def Obligations.OnlyAlignedWindowAccessesAdmitted : Prop :=
  ∀ (s : State) (addr : Nat),
    (∀ width : Nat,
      (width = 8 ∧ s.params.base ≤ addr ∧ addr < s.params.base + 0x40 ∧ (addr - s.params.base) % 8 = 0 →
        ∃ t, step (s.withInput (.read addr width)) = .next t) ∧
      (¬ (width = 8 ∧ s.params.base ≤ addr ∧ addr < s.params.base + 0x40 ∧ (addr - s.params.base) % 8 = 0) →
        step (s.withInput (.read addr width)) = .fault .notAdmitted)) ∧
    (∀ bytes : List Byte,
      (bytes.length = 8 ∧ s.params.base ≤ addr ∧ addr < s.params.base + 0x40 ∧ (addr - s.params.base) % 8 = 0 →
        ∃ t, step (s.withInput (.write addr bytes)) = .next t) ∧
      (¬ (bytes.length = 8 ∧ s.params.base ≤ addr ∧ addr < s.params.base + 0x40 ∧
          (addr - s.params.base) % 8 = 0) →
        step (s.withInput (.write addr bytes)) = .fault .notAdmitted))

/-- R55: byte `j` of a 64-bit write is bits `8j+7:8j` of the register it replaces, and the bytes of a word are those of
its lanes, the lowest address first. -/
def Obligations.WindowIsLittleEndian : Prop :=
  (∀ (s : State) (bytes : List Byte), bytes.length = 8 →
    ∃ t, step (s.withInput (.write (s.params.base + 0x08) bytes)) = .next t ∧
      ∀ (j : Nat) (h : j < bytes.length), t.opa.extractLsb' (8 * j) 8 = bytes[j]) ∧
  (∀ v : Word, wordOfBytes (bytesOfWord v) = v)

/-- 10_state.md R20, 20_memory.md R53: a step that performs neither a host write nor reset changes no architectural
state: it takes its input and may answer it. With nothing waiting at the port the block keeps its state (the model's
choice, log 7). -/
def Obligations.OnlyWritesAndResetChangeState : Prop :=
  (∀ (s t : State) (addr width : Nat), step (s.withInput (.read addr width)) = .next t →
    t = { s with replies := t.replies }) ∧
  (∀ s : State, s.inputs = [] → step s = .next s)

/-- 30_encoding.md R76, R77: the statements a pseudo-instruction expands to, performed by a port that has nothing else
waiting, write its operands and then run its command; RANK is RANK1 and SELECT is SELECT1; and a mnemonic takes one
operand exactly when it reads OPA only, two exactly when it reads OPB. -/
def Obligations.PseudoInstructionsWriteOperandsThenRun : Prop :=
  (∀ (s : State) (i : Instr) (a : Word),
    i ∈ [Instr.popcnt, .clz, .ctz, .dvRank1, .dvRank0, .dvSelect1, .dvSelect0, .dvSelects, .dvInsert, .dvRemove,
      .dvTest, .dvReadw] → s.inputs = [] →
    ∃ l t, expand (.one i a) = some l ∧ step (s.load l) = .next t ∧ step t = exec i { s with opa := a }) ∧
  (∀ (s : State) (i : Instr) (a b : Word), i ∈ [Instr.rank1, .rank0, .select1, .select0] → s.inputs = [] →
    ∃ l t u, expand (.two i a b) = some l ∧ step (s.load l) = .next t ∧ step t = .next u ∧
      step u = exec i { s with opa := a, opb := b }) ∧
  (∀ (a b : Word), expand (.rank a b) = expand (.two .rank1 a b) ∧ expand (.select a b) = expand (.two .select1 a b)) ∧
  (∀ (a b : Word) (i : Instr),
    (expand (.two i a b) = none ↔ i ∉ [Instr.rank1, .rank0, .select1, .select0]) ∧
    (expand (.one i a) = none ↔ i ∈ [Instr.rank1, .rank0, .select1, .select0, .dvCount, .dvClear]))

/-! ### The informative broadword algorithm -/

/-- 40_word_kernel.md §4: the broadword count is the count of R100, for every word. -/
def Obligations.BroadwordCountAgrees : Prop :=
  ∀ w : Word, (bwCount w).toNat = setBelow w.getLsbD 64

/-- §4: the broadword select is the select of R103, for every word and every rank below its count. -/
def Obligations.BroadwordSelectAgrees : Prop :=
  ∀ (w : Word) (c : Nat), c < setBelow w.getLsbD 64 →
    (bwSelectRaw w (BitVec.ofNat 64 c)).toNat < 64 ∧
    w.getLsbD (bwSelectRaw w (BitVec.ofNat 64 c)).toNat = true ∧
    setBelow w.getLsbD (bwSelectRaw w (BitVec.ofNat 64 c)).toNat = c
end

