-- ==== Sys2Proof/Laws/Bits.lean ====
section
/-! SUPPORT. Sums, masks, counts, ranks and selects of one word: what each says in terms of positions. -/

namespace Sys2Proof.Machine

theorem sumTo_congr {f g : Nat → Nat} {n : Nat} (h : ∀ i < n, f i = g i) : sumTo f n = sumTo g n := by
  induction n with
  | zero => rfl
  | succ n ih =>
    have h1 := ih (fun i hi => h i (by omega))
    simp only [sumTo, h1, h n (by omega)]

theorem sumTo_eq_sum (f : Nat → Nat) (n : Nat) : sumTo f n = ∑ j ∈ Finset.range n, f j := by
  induction n with
  | zero => rfl
  | succ n ih => rw [sumTo, ih, Finset.sum_range_succ]

theorem sumTo_mono (f : Nat → Nat) {m n : Nat} (h : m ≤ n) : sumTo f m ≤ sumTo f n := by
  induction n, h using Nat.le_induction with
  | base => exact Nat.le_refl _
  | succ n _ ih => simp only [sumTo]; omega

/-- Past the last nonzero term a sum no longer grows. -/
theorem sumTo_stable (f : Nat → Nat) {m n : Nat} (h : m ≤ n) (hz : ∀ i, m ≤ i → i < n → f i = 0) :
    sumTo f n = sumTo f m := by
  induction n, h using Nat.le_induction with
  | base => rfl
  | succ n hmn ih =>
    have h1 := ih (fun i h2 h3 => hz i h2 (by omega))
    have h2 := hz n hmn (by omega)
    simp only [sumTo, h1, h2, Nat.add_zero]

@[simp] theorem setBelow_zero (f : Nat → Bool) : setBelow f 0 = 0 := rfl

theorem setBelow_succ (f : Nat → Bool) (n : Nat) : setBelow f (n + 1) = setBelow f n + (f n).toNat := by
  unfold setBelow
  rw [Finset.range_add_one, Finset.filter_insert]
  by_cases h : f n = true
  · rw [if_pos h, Finset.card_insert_of_notMem (by simp)]
    simp [h]
  · rw [if_neg h]
    simp [Bool.not_eq_true] at h
    simp [h]

theorem clearBelow_eq (f : Nat → Bool) (n : Nat) : clearBelow f n = n - setBelow f n := by
  have h := Finset.card_filter_add_card_filter_not (s := Finset.range n) (fun p => f p = true)
  simp only [Finset.card_range, Bool.not_eq_true] at h
  unfold clearBelow setBelow
  omega

theorem setBelow_eq_sumTo (f : Nat → Bool) (n : Nat) : setBelow f n = sumTo (fun i => (f i).toNat) n := by
  induction n with
  | zero => rfl
  | succ n ih => rw [setBelow_succ, ih, sumTo]

theorem setBelow_le (f : Nat → Bool) (n : Nat) : setBelow f n ≤ n := by
  induction n with
  | zero => simp
  | succ n ih =>
    rw [setBelow_succ]
    have := Bool.toNat_le (f n)
    omega

theorem setBelow_mono (f : Nat → Bool) {m n : Nat} (h : m ≤ n) : setBelow f m ≤ setBelow f n := by
  simp only [setBelow_eq_sumTo]
  exact sumTo_mono _ h

theorem setBelow_congr {f g : Nat → Bool} {n : Nat} (h : ∀ i < n, f i = g i) : setBelow f n = setBelow g n := by
  simp only [setBelow_eq_sumTo]
  exact sumTo_congr fun i hi => by rw [h i hi]

theorem setBelow_stable (f : Nat → Bool) {m n : Nat} (h : m ≤ n) (hz : ∀ i, m ≤ i → i < n → f i = false) :
    setBelow f n = setBelow f m := by
  simp only [setBelow_eq_sumTo]
  exact sumTo_stable _ h fun i h1 h2 => by rw [hz i h1 h2]; rfl

theorem setBelow_not (f : Nat → Bool) (n : Nat) : setBelow (fun p => !f p) n = clearBelow f n := by
  unfold setBelow clearBelow
  congr 1
  ext p
  simp

theorem clearBelow_mono (f : Nat → Bool) {m n : Nat} (h : m ≤ n) : clearBelow f m ≤ clearBelow f n := by
  simp only [← setBelow_not]
  exact setBelow_mono _ h

/-- A position at which `f` holds raises the rank of every later one. -/
theorem setBelow_lt_of_set (f : Nat → Bool) {p q : Nat} (h : p < q) (hp : f p = true) :
    setBelow f p < setBelow f q := by
  have h1 := setBelow_mono f (show p + 1 ≤ q by omega)
  rw [setBelow_succ, hp] at h1
  simp at h1
  omega

/-- A set position of a given rank is the only one. -/
theorem setBelow_unique (f : Nat → Bool) {p q : Nat} (hp : f p = true) (hq : f q = true)
    (h : setBelow f p = setBelow f q) : p = q := by
  rcases Nat.lt_trichotomy p q with h1 | h1 | h1
  · have := setBelow_lt_of_set f h1 hp; omega
  · exact h1
  · have := setBelow_lt_of_set f h1 hq; omega

/-- A set position of every rank below the count exists. -/
theorem setBelow_exists (f : Nat → Bool) {c n : Nat} (h : c < setBelow f n) :
    ∃ p < n, f p = true ∧ setBelow f p = c := by
  induction n with
  | zero => simp at h
  | succ n ih =>
    by_cases h1 : c < setBelow f n
    · obtain ⟨p, hp, h2⟩ := ih h1
      exact ⟨p, by omega, h2⟩
    · rw [setBelow_succ] at h
      cases hf : f n with
      | false => simp [hf] at h; omega
      | true => exact ⟨n, by omega, hf, by simp [hf] at h; omega⟩

theorem setBelow_add (f : Nat → Bool) (m n : Nat) :
    setBelow f (m + n) = setBelow f m + setBelow (fun p => f (m + p)) n := by
  induction n with
  | zero => simp
  | succ n ih => rw [← Nat.add_assoc, setBelow_succ, ih, setBelow_succ, Nat.add_assoc]

theorem setBelow_word_stable {w : Word} (n : Nat) (hn : 64 ≤ n) :
    setBelow w.getLsbD n = setBelow w.getLsbD 64 :=
  setBelow_stable _ hn fun i h1 _ => BitVec.getLsbD_of_ge w i h1

theorem getLsbD_mask (i j : Nat) : (mask i).getLsbD j = (decide (j < i) && decide (j < 64)) := by
  unfold mask
  rw [BitVec.getLsbD_ofNat, Nat.testBit_two_pow_sub_one, Bool.and_comm]

theorem count_eq (w : Word) : count w = setBelow w.getLsbD 64 := by
  unfold count
  split
  · rename_i h
    subst h
    exact (setBelow_stable _ (Nat.zero_le 64) fun i _ _ => BitVec.getLsbD_zero).symm
  · rw [setBelow_eq_sumTo]

theorem count_le (w : Word) : count w ≤ 64 := by
  rw [count_eq]; exact setBelow_le _ _

/-- The rank of a word counts the set bits below the position. -/
theorem rankOfWord_eq {w : Word} {i : Nat} (h : i ≤ 64) : rankOfWord w i = setBelow w.getLsbD i := by
  rw [rankOfWord, count_eq, setBelow_stable _ h]
  · refine setBelow_congr fun j hj => ?_
    rw [BitVec.getLsbD_and, getLsbD_mask]
    simp [hj, show j < 64 by omega]
  · intro j h1 _
    rw [BitVec.getLsbD_and, getLsbD_mask]
    simp [show ¬ j < i by omega]

theorem rankOfWord_le {w : Word} {i : Nat} (h : i ≤ 64) : rankOfWord w i ≤ i := by
  rw [rankOfWord_eq h]; exact setBelow_le _ _

theorem count_zero : count 0#64 = 0 := rfl

theorem count_eq_zero {w : Word} : count w = 0 ↔ w = 0#64 := by
  constructor
  · intro h
    apply BitVec.eq_of_getLsbD_eq
    intro i hi
    rw [BitVec.getLsbD_zero]
    by_contra h1
    rw [Bool.not_eq_false] at h1
    have := setBelow_lt_of_set w.getLsbD hi h1
    rw [count_eq] at h
    omega
  · rintro rfl; exact count_zero

theorem count_not (w : Word) : count (~~~ w) = 64 - count w := by
  rw [count_eq, count_eq, ← clearBelow_eq, ← setBelow_not]
  exact setBelow_congr fun i hi => by simp [hi]

/-- The select of a word answers `p` exactly when `p` is a set bit of that rank. -/
theorem selectOfWord_eq_some {w : Word} {c p : Nat} :
    selectOfWord w c = some p ↔ p < 64 ∧ w.getLsbD p = true ∧ setBelow w.getLsbD p = c := by
  have hiff : ∀ q < 64, ((w.getLsbD q && decide (rankOfWord w q = c)) = true ↔
      w.getLsbD q = true ∧ setBelow w.getLsbD q = c) := by
    intro q hq
    rw [Bool.and_eq_true, decide_eq_true_eq, rankOfWord_eq (by omega)]
  unfold selectOfWord
  split
  · rename_i h
    simp only [reduceCtorEq, false_iff, not_and]
    intro h1 h2 h3
    have := setBelow_lt_of_set w.getLsbD h1 h2
    rw [count_eq] at h
    omega
  · constructor
    · intro h
      have h1 := List.find?_some h
      have h2 := List.mem_range.mp (List.mem_of_find?_eq_some h)
      exact ⟨h2, (hiff p h2).mp h1⟩
    · rintro ⟨h1, h2⟩
      cases hf : (List.range 64).find? (fun p => w.getLsbD p && decide (rankOfWord w p = c)) with
      | none =>
        have := List.find?_eq_none.mp hf p (List.mem_range.mpr h1)
        exact absurd ((hiff p h1).mpr h2) this
      | some q =>
        have h3 := List.find?_some hf
        have h4 := List.mem_range.mp (List.mem_of_find?_eq_some hf)
        have h5 := (hiff q h4).mp h3
        rw [setBelow_unique w.getLsbD h5.1 h2.1 (h5.2.trans h2.2.symm)]

/-- The select of a word answers none exactly when the rank is not below the count. -/
theorem selectOfWord_eq_none {w : Word} {c : Nat} : selectOfWord w c = none ↔ setBelow w.getLsbD 64 ≤ c := by
  constructor
  · intro h
    by_contra h1
    obtain ⟨p, hp, h2⟩ := setBelow_exists w.getLsbD (show c < setBelow w.getLsbD 64 by omega)
    rw [selectOfWord_eq_some.mpr ⟨hp, h2⟩] at h
    exact absurd h (by simp)
  · intro h
    unfold selectOfWord
    rw [if_pos (by rw [count_eq]; exact h)]

theorem getLsbD_setBit {w : Word} {b p : Nat} (hb : b < 64) :
    (setBit w b).getLsbD p = (w.getLsbD p || decide (p = b)) := by
  unfold setBit
  rw [BitVec.getLsbD_or, BitVec.getLsbD_ofNat, Nat.testBit_two_pow]
  by_cases h : p = b
  · subst h; simp [hb]
  · simp [h, Ne.symm h]

theorem getLsbD_clearBit {w : Word} {b p : Nat} :
    (clearBit w b).getLsbD p = (w.getLsbD p && !decide (p = b)) := by
  unfold clearBit
  rw [BitVec.getLsbD_and, BitVec.getLsbD_not, BitVec.getLsbD_ofNat, Nat.testBit_two_pow]
  by_cases h : p = b
  · subst h
    by_cases h1 : p < 64
    · simp [h1]
    · simp [BitVec.getLsbD_of_ge w p (by omega)]
  · by_cases h1 : p < 64
    · simp [h, Ne.symm h, h1]
    · simp [BitVec.getLsbD_of_ge w p (by omega)]

theorem setBit_ne_zero {w : Word} {b : Nat} (hb : b < 64) : setBit w b ≠ 0#64 := by
  intro h
  have := getLsbD_setBit (w := w) (p := b) hb
  rw [h] at this
  simp at this

theorem toNat_zext64 {n : Nat} (h : n < 2 ^ 64) : (zext64 n).toNat = n := by
  simp only [zext64, BitVec.toNat_ofNat]
  exact Nat.mod_eq_of_lt h

end Sys2Proof.Machine
end

