-- ==== Sys2Proof/Laws/Memory.lean ====
section
/-! SUPPORT. The storage array: read after write, the canonical form, and equality of equal memories. -/

namespace Sys2Proof.Machine

@[simp] theorem Memory.read_nil (k : Nat) : Memory.read [] k = 0#64 := rfl

/-- A write of a nonzero word needs no canonical form to be read back. -/
theorem Memory.read_write_same {m : Memory} {k : Nat} {v : Word} (h : v ≠ 0#64 ∨ Memory.wf m = true) :
    Memory.read (Memory.write m k v) k = v := by
  have key : ∀ (m : Memory) (lo : Nat), (v ≠ 0#64 ∨ Memory.wfFrom lo m = true) →
      Memory.read (Memory.write m k v) k = v := by
    intro m
    induction m with
    | nil =>
      intro lo _
      by_cases hv : v = 0#64
      · simp [Memory.write, hv]
      · simp [Memory.write, hv, Memory.read]
    | cons c m ih =>
      obtain ⟨j, u⟩ := c
      intro lo h
      have hr : v ≠ 0#64 ∨ Memory.wfFrom (j + 1) m = true := by
        rcases h with h | h
        · exact .inl h
        · simp only [Memory.wfFrom, Bool.and_eq_true] at h
          exact .inr h.2
      unfold Memory.write
      split
      · rename_i hkj
        by_cases hv : v = 0#64
        · simp [hv, Memory.read, hkj]
        · simp [hv, Memory.read]
      · split
        · rename_i hkj hk
          by_cases hv : v = 0#64
          · have hr := hr.resolve_left (fun h => h hv)
            rw [if_pos hv, hv]
            cases m with
            | nil => rfl
            | cons d m =>
              obtain ⟨j', u'⟩ := d
              simp only [Memory.wfFrom, Bool.and_eq_true, decide_eq_true_eq] at hr
              simp [Memory.read, show k < j' by omega]
          · simp [hv, Memory.read]
        · rename_i hkj hk
          simp only [Memory.read, hkj, hk, if_false]
          exact ih (j + 1) hr
  exact key m 0 h

theorem Memory.read_of_wfFrom {m : Memory} {lo k : Nat} (h : Memory.wfFrom lo m = true) (hk : k < lo) :
    Memory.read m k = 0#64 := by
  cases m with
  | nil => rfl
  | cons c m =>
    obtain ⟨j, u⟩ := c
    simp only [Memory.wfFrom, Bool.and_eq_true, decide_eq_true_eq] at h
    simp [Memory.read, show k < j by omega]

/-- A write leaves every other word as it was. -/
theorem Memory.read_write_other {m : Memory} {k k' : Nat} {v : Word} (hk : k' ≠ k)
    (h : v ≠ 0#64 ∨ Memory.wf m = true) : Memory.read (Memory.write m k v) k' = Memory.read m k' := by
  have key : ∀ (m : Memory) (lo : Nat), (v ≠ 0#64 ∨ Memory.wfFrom lo m = true) →
      Memory.read (Memory.write m k v) k' = Memory.read m k' := by
    intro m
    induction m with
    | nil =>
      intro lo _
      by_cases hv : v = 0#64
      · simp [Memory.write, hv]
      · simp [Memory.write, hv, Memory.read, hk]
    | cons c m ih =>
      obtain ⟨j, u⟩ := c
      intro lo h
      have hr : v ≠ 0#64 ∨ Memory.wfFrom (j + 1) m = true := by
        rcases h with h | h
        · exact .inl h
        · simp only [Memory.wfFrom, Bool.and_eq_true] at h
          exact .inr h.2
      unfold Memory.write
      split
      · rename_i hkj
        by_cases hv : v = 0#64
        · simp [hv]
        · rw [if_neg hv]
          by_cases h1 : k' < k
          · simp [Memory.read, h1, show k' < j by omega]
          · simp [Memory.read, h1, hk]
      · split
        · rename_i hkj hkk
          subst hkk
          by_cases hv : v = 0#64
          · have hr := hr.resolve_left (fun h => h hv)
            rw [if_pos hv]
            by_cases h1 : k' < k
            · simp [Memory.read, h1, Memory.read_of_wfFrom hr (show k' < k + 1 by omega)]
            · simp [Memory.read, h1, hk]
          · simp [hv, Memory.read, hk]
        · simp only [Memory.read]
          rw [ih (j + 1) hr]
  exact key m 0 h

/-- Every write keeps the canonical form. -/
theorem Memory.write_wf {m : Memory} {k : Nat} {v : Word} (h : Memory.wf m = true) :
    Memory.wf (Memory.write m k v) = true := by
  have key : ∀ (m : Memory) (lo : Nat), lo ≤ k → Memory.wfFrom lo m = true →
      Memory.wfFrom lo (Memory.write m k v) = true := by
    intro m
    induction m with
    | nil =>
      intro lo hlo _
      by_cases hv : v = 0#64
      · simp [Memory.write, hv, Memory.wfFrom]
      · simp [Memory.write, hv, Memory.wfFrom, hlo]
    | cons c m ih =>
      obtain ⟨j, u⟩ := c
      intro lo hlo h
      have h' := h
      simp only [Memory.wfFrom, Bool.and_eq_true, decide_eq_true_eq] at h'
      obtain ⟨⟨h1, h2⟩, h3⟩ := h'
      unfold Memory.write
      split
      · rename_i hkj
        by_cases hv : v = 0#64
        · simp only [hv, if_true, h]
        · simp [hv, Memory.wfFrom, hlo, h2, h3, show k + 1 ≤ j by omega]
      · split
        · rename_i hkj hkk
          subst hkk
          by_cases hv : v = 0#64
          · rw [if_pos hv]
            cases m with
            | nil => rfl
            | cons d m =>
              obtain ⟨j', u'⟩ := d
              simp only [Memory.wfFrom, Bool.and_eq_true, decide_eq_true_eq] at h3 ⊢
              exact ⟨⟨by omega, h3.1.2⟩, h3.2⟩
          · simp [hv, Memory.wfFrom, hlo, h3]
        · rename_i hkj hkk
          simp only [Memory.wfFrom, Bool.and_eq_true, decide_eq_true_eq]
          exact ⟨⟨h1, h2⟩, ih (j + 1) (by omega) h3⟩
  exact key m 0 (Nat.zero_le _) h

@[simp] theorem Memory.wf_nil : Memory.wf [] = true := rfl

@[simp] theorem Memory.below_nil (n : Nat) : Memory.below n [] = true := rfl

theorem Memory.below_mono {m : Memory} {n n' : Nat} (hn : n ≤ n') (h : Memory.below n m = true) :
    Memory.below n' m = true := by
  unfold Memory.below at *
  rw [List.all_eq_true] at *
  intro c hc
  have := h c hc
  simp only [decide_eq_true_eq] at *
  omega

/-- A write below the bound keeps every listed index below it. -/
theorem Memory.write_below {m : Memory} {n k : Nat} {v : Word} (hk : k < n) (h : Memory.below n m = true) :
    Memory.below n (Memory.write m k v) = true := by
  induction m with
  | nil =>
    by_cases hv : v = 0#64
    · simp [Memory.write, hv]
    · simp [Memory.write, hv, Memory.below, hk]
  | cons c m ih =>
    obtain ⟨j, u⟩ := c
    have h' := h
    simp only [Memory.below, List.all_cons, Bool.and_eq_true, decide_eq_true_eq] at h'
    have h3 : Memory.below n m = true := h'.2
    unfold Memory.write
    split
    · by_cases hv : v = 0#64
      · simp only [hv, if_true, h]
      · rw [if_neg hv]
        simp only [Memory.below, List.all_cons, Bool.and_eq_true, decide_eq_true_eq]
        exact ⟨hk, h'.1, h'.2⟩
    · split
      · by_cases hv : v = 0#64
        · rw [if_pos hv]; exact h3
        · rw [if_neg hv]
          simp only [Memory.below, List.all_cons, Bool.and_eq_true, decide_eq_true_eq]
          exact ⟨hk, h3⟩
      · simp only [Memory.below, List.all_cons, Bool.and_eq_true, decide_eq_true_eq]
        exact ⟨h'.1, ih h3⟩

/-- 10_state.md R32 from the bound on the listed indices: a word at or beyond the bound is 0. -/
theorem Memory.read_of_below {m : Memory} {n k : Nat} (h : Memory.below n m = true) (hk : n ≤ k) :
    Memory.read m k = 0#64 := by
  induction m with
  | nil => rfl
  | cons c m ih =>
    obtain ⟨j, u⟩ := c
    simp only [Memory.below, List.all_cons, Bool.and_eq_true, decide_eq_true_eq] at h
    simp only [Memory.read, show ¬ k < j by omega, show ¬ k = j by omega, if_false]
    exact ih h.2

/-- Canonical memories that read alike are the same data. -/
theorem Memory.ext_of_wf {m m' : Memory} (h : Memory.wf m = true) (h' : Memory.wf m' = true)
    (hr : ∀ k, Memory.read m k = Memory.read m' k) : m = m' := by
  have head : ∀ (lo j : Nat) (u : Word) (m : Memory), Memory.wfFrom lo ((j, u) :: m) = true →
      u ≠ 0#64 ∧ Memory.read ((j, u) :: m) j = u ∧ Memory.wfFrom (j + 1) m = true ∧
        (∀ k, k < j → Memory.read ((j, u) :: m) k = 0#64) ∧
        (∀ k, j < k → Memory.read ((j, u) :: m) k = Memory.read m k) := by
    intro lo j u m hw
    simp only [Memory.wfFrom, Bool.and_eq_true, decide_eq_true_eq] at hw
    refine ⟨hw.1.2, by simp [Memory.read], hw.2, fun k hk => by simp [Memory.read, hk], fun k hk => ?_⟩
    simp [Memory.read, show ¬ k < j by omega, show ¬ k = j by omega]
  have key : ∀ (m m' : Memory) (lo lo' : Nat), Memory.wfFrom lo m = true → Memory.wfFrom lo' m' = true →
      (∀ k, Memory.read m k = Memory.read m' k) → m = m' := by
    intro m
    induction m with
    | nil =>
      intro m' lo lo' _ hw' hr
      cases m' with
      | nil => rfl
      | cons d m' =>
        obtain ⟨j', u'⟩ := d
        obtain ⟨h1, h2, -⟩ := head _ _ _ _ hw'
        exact absurd ((hr j').trans h2).symm h1
    | cons c m ih =>
      obtain ⟨j, u⟩ := c
      intro m' lo lo' hw hw' hr
      obtain ⟨h1, h2, h3, h4, h5⟩ := head _ _ _ _ hw
      cases m' with
      | nil => exact absurd ((hr j).symm.trans h2).symm h1
      | cons d m' =>
        obtain ⟨j', u'⟩ := d
        obtain ⟨g1, g2, g3, g4, g5⟩ := head _ _ _ _ hw'
        have hj : j = j' := by
          rcases Nat.lt_trichotomy j j' with hlt | heq | hlt
          · exact absurd (h2.symm.trans ((hr j).trans (g4 j hlt))) h1
          · exact heq
          · exact absurd (g2.symm.trans ((hr j').symm.trans (h4 j' hlt))) g1
        subst hj
        have hu : u = u' := h2.symm.trans ((hr j).trans g2)
        subst hu
        have hm : m = m' := by
          refine ih m' _ _ h3 g3 fun k => ?_
          rcases Nat.lt_or_ge j k with hk | hk
          · rw [← h5 k hk, ← g5 k hk, hr k]
          · rw [Memory.read_of_wfFrom h3 (by omega), Memory.read_of_wfFrom g3 (by omega)]
        rw [hm]
  exact key m m' 0 0 h h' hr

end Sys2Proof.Machine
end

