-- ==== Sys2Proof/Laws/State.lean ====
section
/-! SUPPORT. One lemma per field and per named update of State, so that no proof unfolds a record update. -/

namespace Sys2Proof.Machine

variable (s : State)

@[simp] theorem State.complete_opa (v : Word) (b : Bool) : (s.complete v b).opa = s.opa := rfl
@[simp] theorem State.complete_opb (v : Word) (b : Bool) : (s.complete v b).opb = s.opb := rfl
@[simp] theorem State.complete_res (v : Word) (b : Bool) : (s.complete v b).res = v := rfl
@[simp] theorem State.complete_nf (v : Word) (b : Bool) : (s.complete v b).nf = b := rfl
@[simp] theorem State.complete_err (v : Word) (b : Bool) : (s.complete v b).err = s.err := rfl
@[simp] theorem State.complete_dvlen (v : Word) (b : Bool) : (s.complete v b).dvlen = s.dvlen := rfl
@[simp] theorem State.complete_dv (v : Word) (b : Bool) : (s.complete v b).dv = s.dv := rfl
@[simp] theorem State.complete_params (v : Word) (b : Bool) : (s.complete v b).params = s.params := rfl
@[simp] theorem State.complete_inputs (v : Word) (b : Bool) : (s.complete v b).inputs = s.inputs := rfl
@[simp] theorem State.complete_replies (v : Word) (b : Bool) : (s.complete v b).replies = s.replies := rfl

@[simp] theorem State.completeSelect_opa (r : Option Nat) : (s.completeSelect r).opa = s.opa := rfl
@[simp] theorem State.completeSelect_opb (r : Option Nat) : (s.completeSelect r).opb = s.opb := rfl
@[simp] theorem State.completeSelect_res (r : Option Nat) : (s.completeSelect r).res = selectRes r := rfl
@[simp] theorem State.completeSelect_nf (r : Option Nat) : (s.completeSelect r).nf = selectNF r := rfl
@[simp] theorem State.completeSelect_err (r : Option Nat) : (s.completeSelect r).err = s.err := rfl
@[simp] theorem State.completeSelect_dvlen (r : Option Nat) : (s.completeSelect r).dvlen = s.dvlen := rfl
@[simp] theorem State.completeSelect_dv (r : Option Nat) : (s.completeSelect r).dv = s.dv := rfl
@[simp] theorem State.completeSelect_params (r : Option Nat) : (s.completeSelect r).params = s.params := rfl
@[simp] theorem State.completeSelect_inputs (r : Option Nat) : (s.completeSelect r).inputs = s.inputs := rfl
@[simp] theorem State.completeSelect_replies (r : Option Nat) : (s.completeSelect r).replies = s.replies := rfl

@[simp] theorem State.raiseError_opa (e : ErrCode) : (s.raiseError e).opa = s.opa := rfl
@[simp] theorem State.raiseError_opb (e : ErrCode) : (s.raiseError e).opb = s.opb := rfl
@[simp] theorem State.raiseError_res (e : ErrCode) : (s.raiseError e).res = s.res := rfl
@[simp] theorem State.raiseError_nf (e : ErrCode) : (s.raiseError e).nf = s.nf := rfl
@[simp] theorem State.raiseError_err (e : ErrCode) : (s.raiseError e).err = e := rfl
@[simp] theorem State.raiseError_dvlen (e : ErrCode) : (s.raiseError e).dvlen = s.dvlen := rfl
@[simp] theorem State.raiseError_dv (e : ErrCode) : (s.raiseError e).dv = s.dv := rfl
@[simp] theorem State.raiseError_params (e : ErrCode) : (s.raiseError e).params = s.params := rfl
@[simp] theorem State.raiseError_inputs (e : ErrCode) : (s.raiseError e).inputs = s.inputs := rfl
@[simp] theorem State.raiseError_replies (e : ErrCode) : (s.raiseError e).replies = s.replies := rfl

@[simp] theorem State.setOpa_opa (v : Word) : (s.setOpa v).opa = v := rfl
@[simp] theorem State.setOpa_opb (v : Word) : (s.setOpa v).opb = s.opb := rfl
@[simp] theorem State.setOpa_res (v : Word) : (s.setOpa v).res = s.res := rfl
@[simp] theorem State.setOpa_nf (v : Word) : (s.setOpa v).nf = s.nf := rfl
@[simp] theorem State.setOpa_err (v : Word) : (s.setOpa v).err = s.err := rfl
@[simp] theorem State.setOpa_dvlen (v : Word) : (s.setOpa v).dvlen = s.dvlen := rfl
@[simp] theorem State.setOpa_dv (v : Word) : (s.setOpa v).dv = s.dv := rfl
@[simp] theorem State.setOpa_params (v : Word) : (s.setOpa v).params = s.params := rfl
@[simp] theorem State.setOpa_inputs (v : Word) : (s.setOpa v).inputs = s.inputs := rfl
@[simp] theorem State.setOpa_replies (v : Word) : (s.setOpa v).replies = s.replies := rfl

@[simp] theorem State.setOpb_opa (v : Word) : (s.setOpb v).opa = s.opa := rfl
@[simp] theorem State.setOpb_opb (v : Word) : (s.setOpb v).opb = v := rfl
@[simp] theorem State.setOpb_res (v : Word) : (s.setOpb v).res = s.res := rfl
@[simp] theorem State.setOpb_nf (v : Word) : (s.setOpb v).nf = s.nf := rfl
@[simp] theorem State.setOpb_err (v : Word) : (s.setOpb v).err = s.err := rfl
@[simp] theorem State.setOpb_dvlen (v : Word) : (s.setOpb v).dvlen = s.dvlen := rfl
@[simp] theorem State.setOpb_dv (v : Word) : (s.setOpb v).dv = s.dv := rfl
@[simp] theorem State.setOpb_params (v : Word) : (s.setOpb v).params = s.params := rfl
@[simp] theorem State.setOpb_inputs (v : Word) : (s.setOpb v).inputs = s.inputs := rfl
@[simp] theorem State.setOpb_replies (v : Word) : (s.setOpb v).replies = s.replies := rfl

@[simp] theorem State.setVector_opa (m : Memory) (n : Nat) : (s.setVector m n).opa = s.opa := rfl
@[simp] theorem State.setVector_opb (m : Memory) (n : Nat) : (s.setVector m n).opb = s.opb := rfl
@[simp] theorem State.setVector_res (m : Memory) (n : Nat) : (s.setVector m n).res = s.res := rfl
@[simp] theorem State.setVector_nf (m : Memory) (n : Nat) : (s.setVector m n).nf = s.nf := rfl
@[simp] theorem State.setVector_err (m : Memory) (n : Nat) : (s.setVector m n).err = s.err := rfl
@[simp] theorem State.setVector_dvlen (m : Memory) (n : Nat) : (s.setVector m n).dvlen = n := rfl
@[simp] theorem State.setVector_dv (m : Memory) (n : Nat) : (s.setVector m n).dv = m := rfl
@[simp] theorem State.setVector_params (m : Memory) (n : Nat) : (s.setVector m n).params = s.params := rfl
@[simp] theorem State.setVector_inputs (m : Memory) (n : Nat) : (s.setVector m n).inputs = s.inputs := rfl
@[simp] theorem State.setVector_replies (m : Memory) (n : Nat) : (s.setVector m n).replies = s.replies := rfl

@[simp] theorem State.setInputs_opa (l : List Input) : (s.setInputs l).opa = s.opa := rfl
@[simp] theorem State.setInputs_opb (l : List Input) : (s.setInputs l).opb = s.opb := rfl
@[simp] theorem State.setInputs_res (l : List Input) : (s.setInputs l).res = s.res := rfl
@[simp] theorem State.setInputs_nf (l : List Input) : (s.setInputs l).nf = s.nf := rfl
@[simp] theorem State.setInputs_err (l : List Input) : (s.setInputs l).err = s.err := rfl
@[simp] theorem State.setInputs_dvlen (l : List Input) : (s.setInputs l).dvlen = s.dvlen := rfl
@[simp] theorem State.setInputs_dv (l : List Input) : (s.setInputs l).dv = s.dv := rfl
@[simp] theorem State.setInputs_params (l : List Input) : (s.setInputs l).params = s.params := rfl
@[simp] theorem State.setInputs_inputs (l : List Input) : (s.setInputs l).inputs = l := rfl
@[simp] theorem State.setInputs_replies (l : List Input) : (s.setInputs l).replies = s.replies := rfl

@[simp] theorem State.reply_opa (v : Word) : (s.reply v).opa = s.opa := rfl
@[simp] theorem State.reply_opb (v : Word) : (s.reply v).opb = s.opb := rfl
@[simp] theorem State.reply_res (v : Word) : (s.reply v).res = s.res := rfl
@[simp] theorem State.reply_nf (v : Word) : (s.reply v).nf = s.nf := rfl
@[simp] theorem State.reply_err (v : Word) : (s.reply v).err = s.err := rfl
@[simp] theorem State.reply_dvlen (v : Word) : (s.reply v).dvlen = s.dvlen := rfl
@[simp] theorem State.reply_dv (v : Word) : (s.reply v).dv = s.dv := rfl
@[simp] theorem State.reply_params (v : Word) : (s.reply v).params = s.params := rfl
@[simp] theorem State.reply_inputs (v : Word) : (s.reply v).inputs = s.inputs := rfl
@[simp] theorem State.reply_replies (v : Word) : (s.reply v).replies = s.replies ++ [v] := rfl

@[simp] theorem State.withInput_opa (e : Input) : (s.withInput e).opa = s.opa := rfl
@[simp] theorem State.withInput_opb (e : Input) : (s.withInput e).opb = s.opb := rfl
@[simp] theorem State.withInput_res (e : Input) : (s.withInput e).res = s.res := rfl
@[simp] theorem State.withInput_nf (e : Input) : (s.withInput e).nf = s.nf := rfl
@[simp] theorem State.withInput_err (e : Input) : (s.withInput e).err = s.err := rfl
@[simp] theorem State.withInput_dvlen (e : Input) : (s.withInput e).dvlen = s.dvlen := rfl
@[simp] theorem State.withInput_dv (e : Input) : (s.withInput e).dv = s.dv := rfl
@[simp] theorem State.withInput_params (e : Input) : (s.withInput e).params = s.params := rfl
@[simp] theorem State.withInput_inputs (e : Input) : (s.withInput e).inputs = e :: s.inputs := rfl
@[simp] theorem State.withInput_replies (e : Input) : (s.withInput e).replies = s.replies := rfl

@[simp] theorem State.resetBlock_opa : s.resetBlock.opa = 0#64 := rfl
@[simp] theorem State.resetBlock_opb : s.resetBlock.opb = 0#64 := rfl
@[simp] theorem State.resetBlock_res : s.resetBlock.res = 0#64 := rfl
@[simp] theorem State.resetBlock_nf : s.resetBlock.nf = false := rfl
@[simp] theorem State.resetBlock_err : s.resetBlock.err = ErrCode.none := rfl
@[simp] theorem State.resetBlock_dvlen : s.resetBlock.dvlen = 0 := rfl
@[simp] theorem State.resetBlock_dv : s.resetBlock.dv = [] := rfl
@[simp] theorem State.resetBlock_params : s.resetBlock.params = s.params := rfl
@[simp] theorem State.resetBlock_inputs : s.resetBlock.inputs = s.inputs := rfl
@[simp] theorem State.resetBlock_replies : s.resetBlock.replies = s.replies := rfl

@[simp] theorem State.resetWith_opa (p : Params) : (State.resetWith p).opa = 0#64 := rfl
@[simp] theorem State.resetWith_opb (p : Params) : (State.resetWith p).opb = 0#64 := rfl
@[simp] theorem State.resetWith_res (p : Params) : (State.resetWith p).res = 0#64 := rfl
@[simp] theorem State.resetWith_nf (p : Params) : (State.resetWith p).nf = false := rfl
@[simp] theorem State.resetWith_err (p : Params) : (State.resetWith p).err = ErrCode.none := rfl
@[simp] theorem State.resetWith_dvlen (p : Params) : (State.resetWith p).dvlen = 0 := rfl
@[simp] theorem State.resetWith_dv (p : Params) : (State.resetWith p).dv = [] := rfl
@[simp] theorem State.resetWith_params (p : Params) : (State.resetWith p).params = p := rfl
@[simp] theorem State.resetWith_inputs (p : Params) : (State.resetWith p).inputs = [] := rfl
@[simp] theorem State.resetWith_replies (p : Params) : (State.resetWith p).replies = [] := rfl

end Sys2Proof.Machine
end

