-- ==== Sys2Proof/Laws/Ops.lean ====
section
/-! SUPPORT. One lemma per shared operation: the lockout, the status and configuration words, which accesses are
admitted, the byte order of the bus, and the decoder. -/

namespace Sys2Proof

/-- The bytes of a word, put together again, are the word (20_memory.md R55). -/
theorem Machine.wordOfBytes_bytesOfWord (v : Word) : wordOfBytes (bytesOfWord v) = v := by
  apply BitVec.eq_of_toNat_eq
  simp only [wordOfBytes, bytesOfWord, busByte, List.foldr, BitVec.extractLsb'_toNat, BitVec.toNat_ofNat,
    Nat.shiftRight_eq_div_pow]
  have := v.isLt
  omega

@[simp] theorem Machine.length_bytesOfWord (v : Word) : (bytesOfWord v).length = 8 := rfl

/-- Eight bytes are the bytes of the word they make (R55). -/
theorem Machine.bytesOfWord_wordOfBytes {bs : List Byte} (h : bs.length = 8) : bytesOfWord (wordOfBytes bs) = bs := by
  match bs, h with
  | [b0, b1, b2, b3, b4, b5, b6, b7], _ =>
    simp only [bytesOfWord, busByte, wordOfBytes, List.foldr, List.cons.injEq, and_true]
    have h0 := b0.isLt; have h1 := b1.isLt; have h2 := b2.isLt; have h3 := b3.isLt
    have h4 := b4.isLt; have h5 := b5.isLt; have h6 := b6.isLt; have h7 := b7.isLt
    refine ⟨?_, ?_, ?_, ?_, ?_, ?_, ?_, ?_⟩ <;>
    · apply BitVec.eq_of_toNat_eq
      simp only [BitVec.extractLsb'_toNat, BitVec.toNat_ofNat, Nat.shiftRight_eq_div_pow]
      omega

/-- RSV is zero exactly when the word is below 2^8, and OP is then the word. -/
theorem Machine.fieldRSV_eq_zero {v : Word} : fieldRSV v = 0#56 ↔ v.toNat < 256 := by
  rw [← BitVec.toNat_inj]
  simp only [fieldRSV, BitVec.extractLsb'_toNat, Nat.shiftRight_eq_div_pow, BitVec.toNat_ofNat]
  have := v.isLt
  omega

theorem Machine.toNat_fieldOP (v : Word) : (fieldOP v).toNat = v.toNat % 256 := by
  simp [fieldOP, BitVec.extractLsb'_toNat]

theorem Machine.instrOfOpcode_opcode (i : Instr) : instrOfOpcode (opcode i) = some i := by cases i <;> rfl

theorem Machine.instrOfOpcode_eq_some {op : BitVec 8} {i : Instr} : instrOfOpcode op = some i ↔ op = opcode i := by
  constructor
  · intro h
    unfold instrOfOpcode at h
    split at h <;> first | (cases h; rfl) | exact absurd h (by simp)
  · rintro rfl
    exact Machine.instrOfOpcode_opcode i

theorem Machine.toNat_encode (i : Instr) : (encode i).toNat = (opcode i).toNat := by cases i <;> rfl

namespace Machine

/-- An outcome passes the lockout when no fault is recorded. -/
@[simp] theorem unlessLocked_open {s : State} (o : Host.Outcome State Fault Refusal) (h : s.err = .none) :
    unlessLocked s o = o := if_pos h

/-- Under the lockout a command changes nothing (60_exceptions.md R164). -/
@[simp] theorem unlessLocked_locked {s : State} (o : Host.Outcome State Fault Refusal) (h : s.err ≠ .none) :
    unlessLocked s o = .next s := if_neg h

theorem ErrCode.code_eq_zero {e : ErrCode} : e.code = 0#4 ↔ e = .none := by cases e <;> decide

/-- The eight offsets of the window are those of its registers (20_memory.md R51). -/
theorem WindowReg.ofOffset_eq_some {o : Nat} {r : WindowReg} : WindowReg.ofOffset o = some r ↔ o = r.offset := by
  constructor
  · intro h
    unfold WindowReg.ofOffset at h
    split at h <;> first | (cases h; rfl) | exact absurd h (by simp)
  · rintro rfl
    cases r <;> rfl

/-- An offset has a register exactly when it is a multiple of 8 within the window (R51, R52). -/
theorem WindowReg.ofOffset_eq_none {o : Nat} : WindowReg.ofOffset o = none ↔ ¬ (o < 0x40 ∧ o % 8 = 0) := by
  constructor
  · rintro h ⟨h1, h2⟩
    have h3 : o = 8 * (o / 8) := by omega
    have h4 : o / 8 < 8 := by omega
    generalize o / 8 = q at h3 h4
    subst h3
    interval_cases q <;> exact absurd h (by decide)
  · intro h
    cases hr : WindowReg.ofOffset o with
    | none => rfl
    | some r =>
      rw [WindowReg.ofOffset_eq_some] at hr
      subst hr
      exact absurd (by cases r <;> decide) h

/-- An admitted access: eight bytes at the address of a register (R52). -/
theorem admitted_eq_some {p : Params} {addr width : Nat} {r : WindowReg} :
    admitted p addr width = some r ↔ width = 8 ∧ addr = p.base + r.offset := by
  unfold admitted
  split
  · rename_i h
    rw [WindowReg.ofOffset_eq_some]
    omega
  · rename_i h
    simp only [reduceCtorEq, false_iff]
    omega

@[simp] theorem admitted_reg (p : Params) (r : WindowReg) : admitted p (p.base + r.offset) 8 = some r :=
  admitted_eq_some.mpr ⟨rfl, rfl⟩

theorem admitted_eq_none {p : Params} {addr width : Nat} :
    admitted p addr width = none ↔
      ¬ (width = 8 ∧ p.base ≤ addr ∧ addr < p.base + 0x40 ∧ (addr - p.base) % 8 = 0) := by
  unfold admitted
  split
  · rename_i h
    rw [WindowReg.ofOffset_eq_none]
    omega
  · rename_i h
    simp only [true_iff]
    omega

@[simp] theorem setInputs_withInput (s : State) (e : Input) : (s.withInput e).setInputs s.inputs = s := rfl

/-- A step performs the oldest input of the port. -/
@[simp] theorem step_withInput (s : State) (e : Input) : step (s.withInput e) = perform s e := rfl

theorem step_of_no_input {s : State} (h : s.inputs = []) : step s = .next s := by
  unfold step portStep
  rw [h]

/-- A state with a waiting input is a state and that input put before it. -/
theorem withInput_of_inputs {s : State} {e : Input} {l : List Input} (h : s.inputs = e :: l) :
    s = (s.setInputs l).withInput e := by
  cases s
  simp only at h
  subst h
  rfl

/-- A 64-bit write of a register's address with the bytes of a word. -/
@[simp] theorem perform_write (s : State) (r : WindowReg) (v : Word) :
    perform s (.write (s.params.base + r.offset) (bytesOfWord v)) = writeReg s r v := by
  simp [perform, hostWrite, wordOfBytes_bytesOfWord]

/-- A 64-bit read of a register's address. -/
@[simp] theorem perform_read (s : State) (r : WindowReg) :
    perform s (.read (s.params.base + r.offset) 8) = .next (s.reply (readReg s r)) := by
  simp [perform, hostRead]

end Machine

end Sys2Proof
end

