-- ==== Sys2Proof/Laws/Dense.lean ====
section
/-! SUPPORT. The dense vector: its ranks and selects in terms of positions, and what inserting and removing a bit do
to every position. -/

namespace Sys2Proof.Machine

/-- Bit `p` of the concatenation of words `g 0, g 1, …`. -/
def bitOf (g : Nat → Word) (p : Nat) : Bool := (g (p / 64)).getLsbD (p % 64)

theorem bitOf_add (g : Nat → Word) {k b : Nat} (hb : b < 64) : bitOf g (64 * k + b) = (g k).getLsbD b := by
  unfold bitOf
  rw [show (64 * k + b) / 64 = k by omega, show (64 * k + b) % 64 = b by omega]

/-- The set bits of the first `k` words and of the first `b` bits of the next. -/
theorem setBelow_bitOf_add (g : Nat → Word) (k : Nat) {b : Nat} (hb : b ≤ 64) :
    setBelow (bitOf g) (64 * k + b) = setBelow (bitOf g) (64 * k) + setBelow (g k).getLsbD b := by
  rw [setBelow_add]
  congr 1
  exact setBelow_congr fun i hi => bitOf_add g (by omega)

theorem setBelow_bitOf (g : Nat → Word) (k : Nat) :
    setBelow (bitOf g) (64 * k) = sumTo (fun j => count (g j)) k := by
  induction k with
  | zero => rfl
  | succ k ih => rw [Nat.mul_succ, setBelow_bitOf_add g k (Nat.le_refl 64), ih, sumTo, count_eq]

theorem dvBit_eq (s : State) : dvBit s = bitOf (dvRead s) := rfl

theorem dvRead_of_lt {s : State} {k : Nat} (h : k < s.dvlen) : dvRead s k = Memory.read s.dv k := if_pos h

theorem dvRead_of_ge {s : State} {k : Nat} (h : s.dvlen ≤ k) : dvRead s k = 0#64 := if_neg (by omega)

/-- 42_dense_storage.md R140: a bit at or beyond the length reads 0. -/
theorem dvBit_beyond {s : State} {p : Nat} (h : 64 * s.dvlen ≤ p) : dvBit s p = false := by
  unfold dvBit
  rw [dvRead_of_ge (by unfold wordIndex; omega)]
  simp

/-- With the storage's nonzero words below the length (10_state.md R32) the length check is no restriction. -/
theorem dvRead_of_below {s : State} (h : Memory.below s.dvlen s.dv = true) (k : Nat) :
    dvRead s k = Memory.read s.dv k := by
  by_cases hk : k < s.dvlen
  · exact dvRead_of_lt hk
  · rw [dvRead_of_ge (by omega), Memory.read_of_below h (by omega)]

/-- `ones(k)` counts the set bits of positions [0, 64k) (41_dense_query.md R127). -/
theorem ones_eq (s : State) (k : Nat) : ones s k = setBelow (dvBit s) (64 * k) := by
  rw [dvBit_eq, setBelow_bitOf]
  have h1 : sumTo (fun j => count (dvRead s j)) k = sumTo (fun j => count (dvRead s j)) (min k s.dvlen) :=
    sumTo_stable _ (Nat.min_le_left _ _) fun i h2 h3 => by
      rw [dvRead_of_ge (by omega)]; exact count_zero
  rw [h1]
  exact sumTo_congr fun i hi => by rw [dvRead_of_lt (by omega)]

theorem total_eq (s : State) : total s = setBelow (dvBit s) (64 * s.dvlen) := ones_eq s _

/-- Past the length the rank is the total. -/
theorem setBelow_dvBit_beyond {s : State} {i : Nat} (h : 64 * s.dvlen ≤ i) :
    setBelow (dvBit s) i = total s := by
  rw [total_eq]
  exact setBelow_stable _ h fun p h1 _ => dvBit_beyond h1

theorem setBelow_dvBit_le_total (s : State) (i : Nat) : setBelow (dvBit s) i ≤ total s := by
  rcases Nat.le_total i (64 * s.dvlen) with h | h
  · rw [total_eq]; exact setBelow_mono _ h
  · rw [setBelow_dvBit_beyond h]

/-- R121's value counts the set bits below the position. -/
theorem dvRankValue_eq (s : State) (i : Nat) : dvRankValue s i = setBelow (dvBit s) i := by
  unfold dvRankValue wordIndex bitIndex
  rw [ones_eq, rankOfWord_eq (by omega), dvBit_eq, ← setBelow_bitOf_add _ _ (by omega : i % 64 ≤ 64)]
  congr 1
  omega

/-- The `ones` of the statements is the machine's. -/
theorem onesSpec_eq (s : State) (k : Nat) : onesSpec s k = ones s k := by
  unfold onesSpec ones
  rw [sumTo_eq_sum]
  exact Finset.sum_congr rfl fun j _ => (count_eq _).symm

theorem zeros_eq (s : State) (k : Nat) : zeros s k = clearBelow (dvBit s) (64 * k) := by
  rw [zeros, ones_eq, clearBelow_eq]

/-- What the search for the owning word answers, started with the sum of the words before. -/
theorem owningWord_spec (f : Nat → Nat) (c n : Nat) : ∀ k, sumTo f k ≤ c →
    (owningWord f c n k (sumTo f k) = none ↔ sumTo f (k + n) ≤ c) ∧
    (∀ j b, owningWord f c n k (sumTo f k) = some (j, b) →
      k ≤ j ∧ j < k + n ∧ b = sumTo f j ∧ b ≤ c ∧ c < sumTo f (j + 1)) := by
  induction n with
  | zero =>
    intro k hk
    simp [owningWord, hk]
  | succ n ih =>
    intro k hk
    have hs : sumTo f k + f k = sumTo f (k + 1) := rfl
    unfold owningWord
    rw [hs]
    by_cases h : c < sumTo f (k + 1)
    · rw [if_pos h]
      refine ⟨⟨fun h1 => absurd h1 (by simp), fun h1 => ?_⟩, fun j b h1 => ?_⟩
      · have := sumTo_mono f (show k + 1 ≤ k + (n + 1) by omega)
        omega
      · cases h1
        exact ⟨Nat.le_refl _, by omega, rfl, hk, h⟩
    · rw [if_neg h]
      obtain ⟨h1, h2⟩ := ih (k + 1) (by omega)
      refine ⟨by rw [h1, show k + 1 + n = k + (n + 1) by omega], fun j b h3 => ?_⟩
      obtain ⟨h4, h5, h6⟩ := h2 j b h3
      exact ⟨by omega, by omega, h6⟩

/-- The select over the first `n` words of a sequence. -/
def selectIn (g : Nat → Word) (n c : Nat) : Option Nat :=
  match owningWord (fun k => count (g k)) c n 0 0 with
  | some (k, before) => (selectOfWord (g k) (c - before)).map (64 * k + ·)
  | none => none

/-- It finds the set bit of rank `c` among the first `n` words. -/
theorem selectIn_spec (g : Nat → Word) (n c : Nat) (h : c < setBelow (bitOf g) (64 * n)) :
    ∃ q, selectIn g n c = some q ∧ q < 64 * n ∧ bitOf g q = true ∧ setBelow (bitOf g) q = c := by
  have hspec := owningWord_spec (fun k => count (g k)) c n 0 (Nat.zero_le _)
  rw [setBelow_bitOf] at h
  rw [show sumTo (fun k => count (g k)) 0 = 0 from rfl] at hspec
  unfold selectIn
  cases ho : owningWord (fun k => count (g k)) c n 0 0 with
  | none =>
    have := hspec.1.mp ho
    rw [Nat.zero_add] at this
    omega
  | some r =>
    obtain ⟨k, b⟩ := r
    obtain ⟨-, h2, h3, h4, h5⟩ := hspec.2 k b ho
    rw [show sumTo (fun k => count (g k)) (k + 1) = sumTo (fun k => count (g k)) k + count (g k) from rfl,
      ← h3, count_eq] at h5
    obtain ⟨p, hp, h6, h7⟩ := setBelow_exists (g k).getLsbD (show c - b < setBelow (g k).getLsbD 64 by omega)
    refine ⟨64 * k + p, ?_, by omega, ?_, ?_⟩
    · simp only [selectOfWord_eq_some.mpr ⟨hp, h6, h7⟩, Option.map_some]
    · rw [bitOf_add g hp, h6]
    · rw [setBelow_bitOf_add g k (by omega), setBelow_bitOf, h7, ← h3]
      omega

/-- DV_SELECT1's value: none when the rank is not below the total (41_dense_query.md R123). -/
theorem dvSelectOne_eq_none {s : State} {c : Nat} (h : total s ≤ c) : dvSelectOne s c = none := if_pos h

/-- DV_SELECT1's value: the set bit of rank `c`. -/
theorem dvSelectOne_eq_some {s : State} {c : Nat} (h : c < total s) :
    ∃ q, dvSelectOne s c = some q ∧ q < 64 * s.dvlen ∧ dvBit s q = true ∧ setBelow (dvBit s) q = c := by
  have hb : ∀ p < 64 * s.dvlen, bitOf (Memory.read s.dv) p = dvBit s p := by
    intro p hp
    rw [dvBit_eq, bitOf, bitOf, dvRead_of_lt (by omega)]
  have h1 : c < setBelow (bitOf (Memory.read s.dv)) (64 * s.dvlen) := by
    rw [setBelow_congr hb, ← total_eq]; exact h
  obtain ⟨q, h2, h3, h4, h5⟩ := selectIn_spec _ _ _ h1
  refine ⟨q, ?_, h3, by rw [← hb q h3]; exact h4, ?_⟩
  · rw [dvSelectOne, if_neg (by omega)]; exact h2
  · rw [← setBelow_congr (fun p hp => hb p (by omega)), h5]

/-- DV_SELECT0's value: none when the rank is not below the clear bits searched (R124). -/
theorem dvSelectZero_eq_none {s : State} {c : Nat} (h : zeros s (select0Words s) ≤ c) :
    dvSelectZero s c = none := if_pos h

/-- DV_SELECT0's value: the clear bit of rank `c` among the words searched. -/
theorem dvSelectZero_eq_some {s : State} {c : Nat} (h : c < zeros s (select0Words s)) :
    ∃ q, dvSelectZero s c = some q ∧ q < 64 * select0Words s ∧ dvBit s q = false ∧
      clearBelow (dvBit s) q = c := by
  have hb : ∀ p, bitOf (fun k => ~~~ dvRead s k) p = !dvBit s p := by
    intro p
    rw [dvBit_eq, bitOf, bitOf, BitVec.getLsbD_not]
    simp [Nat.mod_lt]
  have hc : ∀ n, setBelow (bitOf (fun k => ~~~ dvRead s k)) n = clearBelow (dvBit s) n := by
    intro n
    rw [← setBelow_not]
    exact setBelow_congr fun p _ => hb p
  have h1 : c < setBelow (bitOf (fun k => ~~~ dvRead s k)) (64 * select0Words s) := by
    rw [hc, ← zeros_eq]; exact h
  obtain ⟨q, h2, h3, h4, h5⟩ := selectIn_spec _ _ _ h1
  refine ⟨q, ?_, h3, ?_, by rw [← hc, h5]⟩
  · rw [dvSelectZero, if_neg (by omega)]; exact h2
  · rw [hb] at h4; simpa using h4

/-- The halving search finds the least `q` past which a monotonic `f` exceeds `c`. -/
theorem leastPassing_spec {f : Nat → Nat} (hf : ∀ a b, a ≤ b → f a ≤ f b) (c : Nat) :
    ∀ n lo hi, hi - lo ≤ n → (∀ q, q < lo → f (q + 1) ≤ c) → lo ≤ hi →
      lo ≤ leastPassing f c n lo hi ∧ leastPassing f c n lo hi ≤ hi ∧
      (∀ q, q < leastPassing f c n lo hi → f (q + 1) ≤ c) ∧
      (leastPassing f c n lo hi < hi → c < f (leastPassing f c n lo hi + 1)) := by
  intro n
  induction n with
  | zero =>
    intro lo hi h1 h2 h3
    simp only [leastPassing]
    exact ⟨Nat.le_refl _, h3, h2, fun h => by omega⟩
  | succ n ih =>
    intro lo hi h1 h2 h3
    unfold leastPassing
    split
    · exact ⟨Nat.le_refl _, h3, h2, fun h => by omega⟩
    · rename_i hlt
      split
      · rename_i hc
        obtain ⟨g1, g2, g3, g4⟩ := ih lo ((lo + hi) / 2) (by omega) h2 (by omega)
        refine ⟨g1, by omega, g3, fun _ => ?_⟩
        rcases Nat.lt_or_ge (leastPassing f c n lo ((lo + hi) / 2)) ((lo + hi) / 2) with h | h
        · exact g4 h
        · rw [show leastPassing f c n lo ((lo + hi) / 2) = (lo + hi) / 2 by omega]
          exact hc
      · rename_i hc
        obtain ⟨g1, g2, g3, g4⟩ := ih ((lo + hi) / 2 + 1) hi (by omega)
          (fun q hq => by
            have := hf (q + 1) ((lo + hi) / 2 + 1) (by omega)
            omega) (by omega)
        exact ⟨by omega, g2, g3, g4⟩

/-- What DV_INSERT leaves at each word: bit `i` set in its word, every other word as it was. -/
theorem insertBit_read (s : State) (i k : Nat) :
    Memory.read (insertBit s i).dv k =
      if k = wordIndex i then setBit (Memory.read s.dv k) (bitIndex i) else Memory.read s.dv k := by
  have hb : bitIndex i < 64 := Nat.mod_lt _ (by decide)
  by_cases h : k = wordIndex i
  · subst h
    rw [if_pos rfl]
    exact Memory.read_write_same (.inl (setBit_ne_zero hb))
  · rw [if_neg h]
    exact Memory.read_write_other h (.inl (setBit_ne_zero hb))

@[simp] theorem insertBit_dvlen (s : State) (i : Nat) :
    (insertBit s i).dvlen = max s.dvlen (wordIndex i + 1) := by
  show (if s.dvlen ≤ wordIndex i then wordIndex i + 1 else s.dvlen) = _
  split <;> omega

@[simp] theorem insertBit_res (s : State) (i : Nat) : (insertBit s i).res =
    zext64 (1 - ((Memory.read s.dv (wordIndex i)).getLsbD (bitIndex i)).toNat) := rfl
@[simp] theorem insertBit_nf (s : State) (i : Nat) : (insertBit s i).nf = false := rfl
@[simp] theorem insertBit_opa (s : State) (i : Nat) : (insertBit s i).opa = s.opa := rfl
@[simp] theorem insertBit_opb (s : State) (i : Nat) : (insertBit s i).opb = s.opb := rfl
@[simp] theorem insertBit_err (s : State) (i : Nat) : (insertBit s i).err = s.err := rfl
@[simp] theorem insertBit_params (s : State) (i : Nat) : (insertBit s i).params = s.params := rfl
@[simp] theorem insertBit_inputs (s : State) (i : Nat) : (insertBit s i).inputs = s.inputs := rfl
@[simp] theorem insertBit_replies (s : State) (i : Nat) : (insertBit s i).replies = s.replies := rfl

/-- What DV_INSERT leaves at each position of the vector, when no nonzero word lies beyond the length. -/
theorem insertBit_dvBit {s : State} (h : Memory.below s.dvlen s.dv = true) (i p : Nat) :
    dvBit (insertBit s i) p = (dvBit s p || decide (p = i)) := by
  have hb : bitIndex i < 64 := Nat.mod_lt _ (by decide)
  have hr : ∀ k, dvRead (insertBit s i) k =
      if k = wordIndex i then setBit (dvRead s k) (bitIndex i) else dvRead s k := by
    intro k
    rw [dvRead_of_below h, dvRead, insertBit_read, insertBit_dvlen]
    by_cases h1 : k = wordIndex i
    · simp [h1]
    · simp only [h1, if_false]
      by_cases h2 : k < s.dvlen
      · rw [if_pos (by omega)]
      · rw [Memory.read_of_below h (by omega)]; split <;> rfl
  unfold dvBit
  rw [hr]
  by_cases h1 : wordIndex p = wordIndex i
  · rw [if_pos h1, getLsbD_setBit hb]
    congr 2
    unfold wordIndex at h1
    unfold bitIndex
    exact propext ⟨fun h2 => by omega, fun h2 => by rw [h2]⟩
  · rw [if_neg h1]
    have : p ≠ i := fun h2 => h1 (by rw [h2])
    simp [this]

/-- What DV_REMOVE leaves at each word. -/
theorem removeBit_read {s : State} (h : Memory.wf s.dv = true) (i k : Nat) :
    Memory.read (removeBit s i).dv k =
      if k = wordIndex i ∧ k < s.dvlen then clearBit (Memory.read s.dv k) (bitIndex i)
      else Memory.read s.dv k := by
  unfold removeBit removeAt
  by_cases h1 : wordIndex i < s.dvlen
  · simp only [h1, if_true, State.complete_dv, State.setVector_dv]
    by_cases h2 : k = wordIndex i
    · subst h2
      rw [if_pos ⟨rfl, h1⟩, Memory.read_write_same (.inr h)]
    · rw [if_neg (fun h3 => h2 h3.1), Memory.read_write_other h2 (.inr h)]
  · simp only [h1, if_false, State.complete_dv]
    rw [if_neg (by rintro ⟨rfl, h3⟩; exact h1 h3)]

@[simp] theorem removeBit_dvlen (s : State) (i : Nat) : (removeBit s i).dvlen = s.dvlen := by
  unfold removeBit removeAt; split <;> rfl
@[simp] theorem removeBit_nf (s : State) (i : Nat) : (removeBit s i).nf = false := by
  unfold removeBit removeAt; split <;> rfl
@[simp] theorem removeBit_opa (s : State) (i : Nat) : (removeBit s i).opa = s.opa := by
  unfold removeBit removeAt; split <;> rfl
@[simp] theorem removeBit_opb (s : State) (i : Nat) : (removeBit s i).opb = s.opb := by
  unfold removeBit removeAt; split <;> rfl
@[simp] theorem removeBit_err (s : State) (i : Nat) : (removeBit s i).err = s.err := by
  unfold removeBit removeAt; split <;> rfl
@[simp] theorem removeBit_params (s : State) (i : Nat) : (removeBit s i).params = s.params := by
  unfold removeBit removeAt; split <;> rfl
@[simp] theorem removeBit_inputs (s : State) (i : Nat) : (removeBit s i).inputs = s.inputs := by
  unfold removeBit removeAt; split <;> rfl
@[simp] theorem removeBit_replies (s : State) (i : Nat) : (removeBit s i).replies = s.replies := by
  unfold removeBit removeAt; split <;> rfl

/-- DV_REMOVE answers the old bit. -/
theorem removeBit_res (s : State) (i : Nat) : (removeBit s i).res = zext64 (dvBit s i).toNat := by
  unfold removeBit removeAt dvBit dvRead
  split
  · rfl
  · simp [zext64]

/-- What DV_REMOVE leaves at each position of the vector. -/
theorem removeBit_dvBit {s : State} (h : Memory.wf s.dv = true) (i p : Nat) :
    dvBit (removeBit s i) p = (dvBit s p && !decide (p = i)) := by
  unfold dvBit dvRead
  rw [removeBit_dvlen, removeBit_read h]
  by_cases h0 : wordIndex p < s.dvlen
  · rw [if_pos h0, if_pos h0]
    by_cases h1 : wordIndex p = wordIndex i
    · rw [if_pos ⟨h1, h0⟩, getLsbD_clearBit]
      congr 3
      unfold wordIndex at h1
      unfold bitIndex
      exact propext ⟨fun h2 => by omega, fun h2 => by rw [h2]⟩
    · rw [if_neg (fun h2 => h1 h2.1)]
      have : p ≠ i := fun h2 => h1 (by rw [h2])
      simp [this]
  · rw [if_neg h0, if_neg h0]; simp

/-- Setting a bit below CAP_BITS keeps the invariant. -/
theorem insertBit_inv {s : State} (hi : s.Inv) {i : Nat} (h : i < s.params.capBits) : (insertBit s i).Inv := by
  obtain ⟨h1, h2, h3, h4⟩ := hi
  refine ⟨h1, Memory.write_wf h2, ?_, ?_⟩
  · rw [insertBit_dvlen]
    exact Memory.write_below (by omega) (Memory.below_mono (by omega) h3)
  · rw [insertBit_dvlen, insertBit_params]
    have h' : i < 64 * s.params.maxWords := h
    show max s.dvlen (i / 64 + 1) ≤ s.params.maxWords
    omega

/-- Clearing a bit keeps the invariant. -/
theorem removeBit_inv {s : State} (hi : s.Inv) (i : Nat) : (removeBit s i).Inv := by
  obtain ⟨h1, h2, h3, h4⟩ := hi
  unfold removeBit removeAt
  split
  · rename_i h
    exact ⟨h1, Memory.write_wf h2, Memory.write_below h h3, h4⟩
  · exact ⟨h1, h2, h3, h4⟩

end Sys2Proof.Machine
end

