-- ==== Sys2Proof/Laws/Exec.lean ====
section
/-! SUPPORT. What a command can do, said once; what a port write can do; and that both keep the invariant's parts. -/

namespace Sys2Proof.Machine

/-- The commands that change nothing but RES and NF. -/
abbrev onlyAnswers (i : Instr) : Prop := i ≠ .dvInsert ∧ i ≠ .dvRemove ∧ i ≠ .dvClear

theorem exec_of_locked {i : Instr} {s : State} (h : s.err ≠ .none) : exec i s = .next s := by
  cases i <;> exact unlessLocked_locked _ h

/-- Everything a command can do: refused under the lockout; its own error; an answer in RES and NF; or a change of the
vector with its answer. -/
theorem exec_cases {i : Instr} {s t : State} (h : exec i s = .next t) :
    (s.err ≠ .none ∧ t = s) ∨
    (s.err = .none ∧
      (((i = .rank1 ∨ i = .rank0) ∧ 64 < s.opb.toNat ∧ t = s.raiseError .operand) ∨
        (i = .dvInsert ∧ s.params.capBits ≤ s.opa.toNat ∧ t = s.raiseError .capacity) ∨
        (onlyAnswers i ∧ (i = .rank1 ∨ i = .rank0 → s.opb.toNat ≤ 64) ∧ ∃ v b, t = s.complete v b) ∨
        (i = .dvInsert ∧ s.opa.toNat < s.params.capBits ∧ t = insertBit s s.opa.toNat) ∨
        (i = .dvRemove ∧ t = removeBit s s.opa.toNat) ∨
        (i = .dvClear ∧ t = (s.setVector [] 0).complete 0#64 false))) := by
  by_cases he : s.err = .none
  · refine .inr ⟨he, ?_⟩
    cases i
    case rank1 | rank0 =>
      simp only [exec, execRank1, execRank0, rankCommand, unlessLocked_open _ he, operandB] at h
      by_cases hb : 64 < s.opb.toNat
      · rw [if_pos hb] at h
        cases h
        exact .inl ⟨by simp, hb, rfl⟩
      · rw [if_neg hb] at h
        cases h
        exact .inr (.inr (.inl ⟨by decide, fun _ => by omega, _, _, rfl⟩))
    case dvInsert =>
      simp only [exec, execDvInsert, unlessLocked_open _ he, operandA] at h
      by_cases hb : s.params.capBits ≤ s.opa.toNat
      · rw [if_pos hb] at h
        cases h
        exact .inr (.inl ⟨rfl, hb, rfl⟩)
      · rw [if_neg hb] at h
        cases h
        exact .inr (.inr (.inr (.inl ⟨rfl, by omega, rfl⟩)))
    case dvRemove =>
      simp only [exec, execDvRemove, unlessLocked_open _ he] at h
      cases h
      exact .inr (.inr (.inr (.inr (.inl ⟨rfl, rfl⟩))))
    case dvClear =>
      simp only [exec, execDvClear, unlessLocked_open _ he] at h
      cases h
      exact .inr (.inr (.inr (.inr (.inr ⟨rfl, rfl⟩))))
    all_goals
      simp only [exec, execPopcnt, execSelect1, execSelect0, execClz, execCtz, execDvCount, execDvRank1,
        execDvRank0, execDvSelect1, execDvSelect0, execDvSelects, execDvTest, execDvReadw,
        unlessLocked_open _ he] at h
      cases h
      exact .inr (.inr (.inl ⟨by decide, by simp, _, _, rfl⟩))
  · rw [exec_of_locked he] at h
    cases h
    exact .inl ⟨he, rfl⟩

/-- A command always answers a next state: it has no other outcome. -/
theorem exec_answers (i : Instr) (s : State) : ∃ t, exec i s = .next t := by
  by_cases he : s.err = .none
  · cases i <;>
    simp only [exec, execPopcnt, execRank1, execRank0, rankCommand, execSelect1, execSelect0, execClz, execCtz,
      execDvCount, execDvRank1, execDvRank0, execDvSelect1, execDvSelect0, execDvSelects, execDvInsert,
      execDvRemove, execDvTest, execDvReadw, execDvClear, unlessLocked_open _ he] <;>
    first | exact ⟨_, rfl⟩ | (split <;> exact ⟨_, rfl⟩)
  · exact ⟨s, exec_of_locked he⟩

/-- Everything a CMD write can do: refused, illegal, or the command it encodes (60_exceptions.md R162). -/
theorem commandWrite_cases {s t : State} {v : Word} (h : commandWrite s v = .next t) :
    (s.err ≠ .none ∧ t = s) ∨
    (s.err = .none ∧ (∃ e, decodeWord v = .error e) ∧ t = s.raiseError .illegal) ∨
    (s.err = .none ∧ ∃ i, decodeWord v = .ok i ∧ exec i s = .next t) := by
  by_cases he : s.err = .none
  · rw [commandWrite, unlessLocked_open _ he] at h
    cases hd : decodeWord v with
    | error e => rw [hd] at h; cases h; exact .inr (.inl ⟨he, ⟨e, rfl⟩, rfl⟩)
    | ok i => rw [hd] at h; exact .inr (.inr ⟨he, i, rfl, h⟩)
  · rw [commandWrite, unlessLocked_locked _ he] at h
    cases h
    exact .inl ⟨he, rfl⟩

/-- Everything one input of the port can do (20_memory.md R51, R53; 70_reset_and_hazards.md R180). -/
theorem perform_cases {s t : State} {e : Input} (h : perform s e = .next t) :
    (e = .reset ∧ t = s.resetBlock) ∨
    (∃ addr width v, e = .read addr width ∧ t = s.reply v) ∨
    (∃ r bytes, e = .write (s.params.base + WindowReg.offset r) bytes ∧ bytes.length = 8 ∧
      ((r = .cmd ∧ commandWrite s (wordOfBytes bytes) = .next t) ∨
        (r = .opa ∧ t = s.setOpa (wordOfBytes bytes)) ∨
        (r = .opb ∧ t = s.setOpb (wordOfBytes bytes)) ∨
        (r ≠ .cmd ∧ r ≠ .opa ∧ r ≠ .opb ∧ t = s))) := by
  cases e with
  | reset => cases h; exact .inl ⟨rfl, rfl⟩
  | read addr width =>
    simp only [perform, hostRead] at h
    split at h
    · cases h; exact .inr (.inl ⟨_, _, _, rfl, rfl⟩)
    · cases h
  | write addr bytes =>
    simp only [perform, hostWrite] at h
    split at h
    · rename_i r hr
      obtain ⟨hl, ha⟩ := admitted_eq_some.mp hr
      refine .inr (.inr ⟨r, bytes, by rw [ha], hl, ?_⟩)
      cases r <;> simp only [writeReg] at h
      case cmd => exact .inl ⟨rfl, h⟩
      case opa => cases h; exact .inr (.inl ⟨rfl, rfl⟩)
      case opb => cases h; exact .inr (.inr (.inl ⟨rfl, rfl⟩))
      all_goals cases h; exact .inr (.inr (.inr ⟨by simp, by simp, by simp, rfl⟩))
    · cases h

/-- A step is idle or performs the oldest input. -/
theorem step_cases {s t : State} (h : step s = .next t) :
    (s.inputs = [] ∧ t = s) ∨
    (∃ e l, s.inputs = e :: l ∧ s = (s.setInputs l).withInput e ∧ perform (s.setInputs l) e = .next t) := by
  cases hi : s.inputs with
  | nil => rw [step_of_no_input hi] at h; cases h; exact .inl ⟨rfl, rfl⟩
  | cons e l =>
    refine .inr ⟨e, l, rfl, withInput_of_inputs hi, ?_⟩
    rw [withInput_of_inputs hi] at h
    exact h

end Sys2Proof.Machine
end

