-- ==== Sys2Proof/Laws/Lanes.lean ====
section
/-! SUPPORT. Arithmetic on the eight byte lanes of a word, as the broadword algorithm of 40_word_kernel.md §4 uses it:
each lemma says what one operation does in every lane, when no carry or borrow crosses a lane. -/

namespace Sys2Proof.Machine

/-- A word is the sum of its lanes. -/
theorem toNat_eq_lanes (x : Word) : x.toNat =
    (busByte x 0).toNat + 2 ^ 8 * (busByte x 1).toNat + 2 ^ 16 * (busByte x 2).toNat + 2 ^ 24 * (busByte x 3).toNat +
    2 ^ 32 * (busByte x 4).toNat + 2 ^ 40 * (busByte x 5).toNat + 2 ^ 48 * (busByte x 6).toNat +
    2 ^ 56 * (busByte x 7).toNat := by
  simp only [busByte, BitVec.extractLsb'_toNat, Nat.shiftRight_eq_div_pow]
  have := x.isLt
  omega

/-- The lanes of a word given as a sum of bytes. -/
theorem lanes_of_sum {x : Word} {b0 b1 b2 b3 b4 b5 b6 b7 : Nat}
    (h : x.toNat = b0 + 2 ^ 8 * b1 + 2 ^ 16 * b2 + 2 ^ 24 * b3 + 2 ^ 32 * b4 + 2 ^ 40 * b5 + 2 ^ 48 * b6 + 2 ^ 56 * b7)
    (l0 : b0 < 256) (l1 : b1 < 256) (l2 : b2 < 256) (l3 : b3 < 256) (l4 : b4 < 256) (l5 : b5 < 256) (l6 : b6 < 256)
    (_l7 : b7 < 256) :
    (busByte x 0).toNat = b0 ∧ (busByte x 1).toNat = b1 ∧ (busByte x 2).toNat = b2 ∧ (busByte x 3).toNat = b3 ∧
    (busByte x 4).toNat = b4 ∧ (busByte x 5).toNat = b5 ∧ (busByte x 6).toNat = b6 ∧ (busByte x 7).toNat = b7 := by
  have e : ∀ j, (busByte x j).toNat = x.toNat / 2 ^ (8 * j) % 256 := fun j => by
    simp only [busByte, BitVec.extractLsb'_toNat, Nat.shiftRight_eq_div_pow]
  simp only [e, h]
  refine ⟨?_, ?_, ?_, ?_, ?_, ?_, ?_, ?_⟩ <;> omega

theorem forall_lane {p : Nat → Prop} : (∀ j < 8, p j) ↔ p 0 ∧ p 1 ∧ p 2 ∧ p 3 ∧ p 4 ∧ p 5 ∧ p 6 ∧ p 7 := by
  constructor
  · intro h
    exact ⟨h 0 (by decide), h 1 (by decide), h 2 (by decide), h 3 (by decide), h 4 (by decide), h 5 (by decide),
      h 6 (by decide), h 7 (by decide)⟩
  · rintro ⟨h0, h1, h2, h3, h4, h5, h6, h7⟩ j hj
    interval_cases j <;> assumption

/-- Subtraction lane by lane, when no lane borrows. -/
theorem busByte_sub {x y : Word} (h : ∀ j < 8, (busByte y j).toNat ≤ (busByte x j).toNat) :
    ∀ j < 8, busByte (x - y) j = busByte x j - busByte y j := by
  have key : ∀ j < 8, (busByte (x - y) j).toNat = (busByte x j).toNat - (busByte y j).toNat := by
    rw [forall_lane] at h ⊢
    obtain ⟨h0, h1, h2, h3, h4, h5, h6, h7⟩ := h
    have hx := x.isLt
    have hy := y.isLt
    refine lanes_of_sum ?_ (by omega) (by omega) (by omega) (by omega) (by omega) (by omega) (by omega) (by omega)
    have ex := toNat_eq_lanes x
    have ey := toNat_eq_lanes y
    rw [BitVec.toNat_sub_of_le (by rw [BitVec.le_def, ex, ey]; omega), ex, ey]
    clear ex ey hx hy
    generalize (busByte x 0).toNat = a0 at *
    generalize (busByte x 1).toNat = a1 at *
    generalize (busByte x 2).toNat = a2 at *
    generalize (busByte x 3).toNat = a3 at *
    generalize (busByte x 4).toNat = a4 at *
    generalize (busByte x 5).toNat = a5 at *
    generalize (busByte x 6).toNat = a6 at *
    generalize (busByte x 7).toNat = a7 at *
    generalize (busByte y 0).toNat = b0 at *
    generalize (busByte y 1).toNat = b1 at *
    generalize (busByte y 2).toNat = b2 at *
    generalize (busByte y 3).toNat = b3 at *
    generalize (busByte y 4).toNat = b4 at *
    generalize (busByte y 5).toNat = b5 at *
    generalize (busByte y 6).toNat = b6 at *
    generalize (busByte y 7).toNat = b7 at *
    omega
  intro j hj
  apply BitVec.eq_of_toNat_eq
  rw [key j hj, BitVec.toNat_sub]
  have := h j hj
  have := (busByte x j).isLt
  omega

/-- Addition lane by lane, when no lane carries. -/
theorem busByte_add {x y : Word} (h : ∀ j < 8, (busByte x j).toNat + (busByte y j).toNat < 256) :
    ∀ j < 8, busByte (x + y) j = busByte x j + busByte y j := by
  have key : ∀ j < 8, (busByte (x + y) j).toNat = (busByte x j).toNat + (busByte y j).toNat := by
    rw [forall_lane] at h ⊢
    obtain ⟨h0, h1, h2, h3, h4, h5, h6, h7⟩ := h
    refine lanes_of_sum ?_ h0 h1 h2 h3 h4 h5 h6 h7
    have ex := toNat_eq_lanes x
    have ey := toNat_eq_lanes y
    rw [BitVec.toNat_add_of_lt (by rw [ex, ey]; omega), ex, ey]
    clear ex ey
    generalize (busByte x 0).toNat = a0 at *
    generalize (busByte x 1).toNat = a1 at *
    generalize (busByte x 2).toNat = a2 at *
    generalize (busByte x 3).toNat = a3 at *
    generalize (busByte x 4).toNat = a4 at *
    generalize (busByte x 5).toNat = a5 at *
    generalize (busByte x 6).toNat = a6 at *
    generalize (busByte x 7).toNat = a7 at *
    generalize (busByte y 0).toNat = b0 at *
    generalize (busByte y 1).toNat = b1 at *
    generalize (busByte y 2).toNat = b2 at *
    generalize (busByte y 3).toNat = b3 at *
    generalize (busByte y 4).toNat = b4 at *
    generalize (busByte y 5).toNat = b5 at *
    generalize (busByte y 6).toNat = b6 at *
    generalize (busByte y 7).toNat = b7 at *
    omega
  intro j hj
  apply BitVec.eq_of_toNat_eq
  rw [key j hj, BitVec.toNat_add]
  have := h j hj
  omega

@[simp] theorem busByte_and (x y : Word) (j : Nat) : busByte (x &&& y) j = busByte x j &&& busByte y j := by
  unfold busByte; exact BitVec.extractLsb'_and

@[simp] theorem busByte_or (x y : Word) (j : Nat) : busByte (x ||| y) j = busByte x j ||| busByte y j := by
  unfold busByte; exact BitVec.extractLsb'_or

theorem getLsbD_busByte (x : Word) (j i : Nat) : (busByte x j).getLsbD i = (decide (i < 8) && x.getLsbD (8 * j + i)) := by
  unfold busByte; rw [BitVec.getLsbD_extractLsb']

/-- A right shift lane by lane, under a mask that drops the bits which crossed. -/
theorem busByte_shift_mask {x m : Word} {k j : Nat} (h : ∀ i < 8, (busByte m j).getLsbD i = true → k + i < 8) :
    busByte ((x >>> k) &&& m) j = (busByte x j >>> k) &&& busByte m j := by
  apply BitVec.eq_of_getLsbD_eq
  intro i hi
  rw [busByte_and, BitVec.getLsbD_and, BitVec.getLsbD_and, getLsbD_busByte (x >>> k), BitVec.getLsbD_ushiftRight,
    BitVec.getLsbD_ushiftRight, getLsbD_busByte x]
  cases hm : (busByte m j).getLsbD i with
  | false => simp
  | true =>
    have := h i hi hm
    simp [hi, this]
    congr 1
    omega

/-- A right shift by four, lane by lane: the low four bits of the next lane come in above. -/
theorem toNat_busByte_shift_four (x : Word) (j : Nat) : (busByte (x >>> 4) j).toNat =
    (busByte x j).toNat / 16 + 16 * ((busByte x (j + 1)).toNat % 16) := by
  have e : ∀ (y : Word) (j : Nat), (busByte y j).toNat = y.toNat / 2 ^ (8 * j) % 256 := fun y j => by
    simp only [busByte, BitVec.extractLsb'_toNat, Nat.shiftRight_eq_div_pow]
  rw [e, e, e, BitVec.toNat_ushiftRight, Nat.shiftRight_eq_div_pow, Nat.div_div_eq_div_mul, Nat.mul_comm (2 ^ 4),
    ← Nat.div_div_eq_div_mul, show 8 * (j + 1) = 8 * j + 8 by ring, Nat.pow_add, ← Nat.div_div_eq_div_mul]
  generalize x.toNat / 2 ^ (8 * j) = y
  omega

/-- The prefix sums that a multiplication by `L8` leaves in the lanes, when none reaches 256. -/
theorem lanes_mul_L8 {x : Word} (h : sumTo (fun i => (busByte x i).toNat) 8 < 256) :
    ∀ j < 8, (busByte (x * bwL8) j).toNat = sumTo (fun i => (busByte x i).toNat) (j + 1) := by
  rw [forall_lane]
  simp only [sumTo] at h ⊢
  refine lanes_of_sum ?_ (by omega) (by omega) (by omega) (by omega) (by omega) (by omega) (by omega) (by omega)
  rw [BitVec.toNat_mul, show bwL8.toNat = 0x0101_0101_0101_0101 from rfl]
  have ex := toNat_eq_lanes x
  generalize (busByte x 0).toNat = a0 at *
  generalize (busByte x 1).toNat = a1 at *
  generalize (busByte x 2).toNat = a2 at *
  generalize (busByte x 3).toNat = a3 at *
  generalize (busByte x 4).toNat = a4 at *
  generalize (busByte x 5).toNat = a5 at *
  generalize (busByte x 6).toNat = a6 at *
  generalize (busByte x 7).toNat = a7 at *
  rw [ex, show (a0 + 2 ^ 8 * a1 + 2 ^ 16 * a2 + 2 ^ 24 * a3 + 2 ^ 32 * a4 + 2 ^ 40 * a5 + 2 ^ 48 * a6 + 2 ^ 56 * a7) *
      0x0101_0101_0101_0101 =
    (a0 + 2 ^ 8 * (a0 + a1) + 2 ^ 16 * (a0 + a1 + a2) + 2 ^ 24 * (a0 + a1 + a2 + a3) +
      2 ^ 32 * (a0 + a1 + a2 + a3 + a4) + 2 ^ 40 * (a0 + a1 + a2 + a3 + a4 + a5) +
      2 ^ 48 * (a0 + a1 + a2 + a3 + a4 + a5 + a6) + 2 ^ 56 * (a0 + a1 + a2 + a3 + a4 + a5 + a6 + a7)) +
    2 ^ 64 * (a1 + a2 + a3 + a4 + a5 + a6 + a7 + 2 ^ 8 * (a2 + a3 + a4 + a5 + a6 + a7) +
      2 ^ 16 * (a3 + a4 + a5 + a6 + a7) + 2 ^ 24 * (a4 + a5 + a6 + a7) + 2 ^ 32 * (a5 + a6 + a7) +
      2 ^ 40 * (a6 + a7) + 2 ^ 48 * a7) by ring, Nat.add_mul_mod_self_left, Nat.mod_eq_of_lt (by omega)]
  ring

/-- The constants of §4, lane by lane. -/
theorem busByte_masks {j : Nat} (hj : j < 8) : busByte bwM1 j = 0x55#8 ∧ busByte bwM2 j = 0x33#8 ∧
    busByte bwM4 j = 0x0F#8 ∧ busByte bwL8 j = 0x01#8 ∧ busByte bwH8 j = 0x80#8 ∧
    busByte bwSPR j = BitVec.ofNat 8 (2 ^ j) := by
  interval_cases j <;> decide

/-- The 2-bit lane sums of one byte. -/
def pairSums (b : Byte) : Byte := b - ((b >>> 1) &&& 0x55#8)

/-- The 4-bit lane sums of one byte. -/
def nibbleSums (b : Byte) : Byte := (pairSums b &&& 0x33#8) + ((pairSums b >>> 2) &&& 0x33#8)

/-- Both nibble sums of a byte are at most 4, and their sum counts its set bits. -/
theorem nibbleSums_spec (b : Byte) : (nibbleSums b).toNat % 16 ≤ 4 ∧ (nibbleSums b).toNat / 16 ≤ 4 ∧
    (nibbleSums b).toNat % 16 + (nibbleSums b).toNat / 16 = setBelow b.getLsbD 8 := by
  rw [setBelow_eq_sumTo]
  revert b
  decide +kernel

/-- The lanes of `bytecounts(w)` are the counts of the bytes of `w`. -/
theorem busByte_bwByteCounts (w : Word) :
    ∀ j < 8, (busByte (bwByteCounts w) j).toNat = setBelow (busByte w j).getLsbD 8 := by
  have sh : ∀ {x m : Word} {k : Nat} {c : Byte}, (∀ j < 8, busByte m j = c) →
      (∀ i < 8, c.getLsbD i = true → k + i < 8) →
      ∀ j < 8, busByte ((x >>> k) &&& m) j = (busByte x j >>> k) &&& c := by
    intro x m k c hm h j hj
    rw [busByte_shift_mask (by rw [hm j hj]; exact h), hm j hj]
  have hm1 : ∀ j < 8, busByte bwM1 j = 0x55#8 := fun j hj => (busByte_masks hj).1
  have hm2 : ∀ j < 8, busByte bwM2 j = 0x33#8 := fun j hj => (busByte_masks hj).2.1
  have hm4 : ∀ j < 8, busByte bwM4 j = 0x0F#8 := fun j hj => (busByte_masks hj).2.2.1
  have le1 : ∀ b : Byte, ((b >>> 1) &&& 0x55#8).toNat ≤ b.toNat := by decide +kernel
  have lt2 : ∀ b : Byte, (pairSums b &&& 0x33#8).toNat + ((pairSums b >>> 2) &&& 0x33#8).toNat < 256 := by
    decide +kernel
  have a1 : ∀ j < 8, busByte ((w >>> 1) &&& bwM1) j = (busByte w j >>> 1) &&& 0x55#8 := sh hm1 (by decide)
  have a2 : ∀ j < 8, busByte (w - ((w >>> 1) &&& bwM1)) j = pairSums (busByte w j) := by
    intro j hj
    rw [busByte_sub (fun i hi => by rw [a1 i hi]; exact le1 _) j hj, a1 j hj]
    rfl
  unfold bwByteCounts
  simp only
  generalize w - ((w >>> 1) &&& bwM1) = x at *
  have a3 : ∀ j < 8, busByte ((x >>> 2) &&& bwM2) j = (pairSums (busByte w j) >>> 2) &&& 0x33#8 := by
    intro j hj
    rw [sh hm2 (by decide) j hj, a2 j hj]
  have a4 : ∀ j < 8, busByte (x &&& bwM2) j = pairSums (busByte w j) &&& 0x33#8 := by
    intro j hj
    rw [busByte_and, hm2 j hj, a2 j hj]
  have a5 : ∀ j < 8, busByte ((x &&& bwM2) + ((x >>> 2) &&& bwM2)) j = nibbleSums (busByte w j) := by
    intro j hj
    rw [busByte_add (fun i hi => by rw [a3 i hi, a4 i hi]; exact lt2 _) j hj, a3 j hj, a4 j hj]
    rfl
  generalize (x &&& bwM2) + ((x >>> 2) &&& bwM2) = y at *
  have top : (busByte y 8).toNat = 0 := by
    simp only [busByte, BitVec.extractLsb'_toNat, Nat.shiftRight_eq_div_pow]
    have := y.isLt
    omega
  have next : ∀ j < 8, (busByte y (j + 1)).toNat % 16 ≤ 4 := by
    intro j hj
    rcases Nat.lt_or_ge (j + 1) 8 with h | h
    · rw [a5 _ h]; exact (nibbleSums_spec _).1
    · rw [show j + 1 = 8 by omega, top]; decide
  have a6 : ∀ j < 8, (busByte y j).toNat + (busByte (y >>> 4) j).toNat < 256 := by
    intro j hj
    rw [toNat_busByte_shift_four]
    have := next j hj
    have h2 := nibbleSums_spec (busByte w j)
    rw [← a5 j hj] at h2
    omega
  intro j hj
  rw [busByte_and, busByte_add a6 j hj, hm4 j hj, BitVec.toNat_and, BitVec.toNat_add_of_lt (a6 j hj),
    toNat_busByte_shift_four, show (0x0F#8).toNat = 2 ^ 4 - 1 from rfl, Nat.and_two_pow_sub_one_eq_mod]
  have h2 := nibbleSums_spec (busByte w j)
  rw [← a5 j hj] at h2
  have : setBelow (busByte w j).getLsbD 8 ≤ 8 := setBelow_le _ _
  omega

end Sys2Proof.Machine
end

