-- ==== Sys2Proof/Laws/PerInstr.lean ====
section
/-! SUPPORT. The family of statements made per command: its encoding (30_encoding.md R70, R72, R76). -/

namespace Sys2Proof.Laws

/-- A command is well-formed; its word has the opcode in OP and 0 in RSV; its opcode names it and no other command. -/
def CommandEncoding.Statement (i : Instr) : Prop :=
  i.wellFormed = true ∧ fieldOP (encode i) = opcode i ∧ fieldRSV (encode i) = 0#56 ∧
    instrOfOpcode (opcode i) = some i

theorem CommandEncoding.popcnt : CommandEncoding.Statement .popcnt := by unfold CommandEncoding.Statement; decide
theorem CommandEncoding.rank1 : CommandEncoding.Statement .rank1 := by unfold CommandEncoding.Statement; decide
theorem CommandEncoding.rank0 : CommandEncoding.Statement .rank0 := by unfold CommandEncoding.Statement; decide
theorem CommandEncoding.select1 : CommandEncoding.Statement .select1 := by unfold CommandEncoding.Statement; decide
theorem CommandEncoding.select0 : CommandEncoding.Statement .select0 := by unfold CommandEncoding.Statement; decide
theorem CommandEncoding.clz : CommandEncoding.Statement .clz := by unfold CommandEncoding.Statement; decide
theorem CommandEncoding.ctz : CommandEncoding.Statement .ctz := by unfold CommandEncoding.Statement; decide
theorem CommandEncoding.dvCount : CommandEncoding.Statement .dvCount := by unfold CommandEncoding.Statement; decide
theorem CommandEncoding.dvRank1 : CommandEncoding.Statement .dvRank1 := by unfold CommandEncoding.Statement; decide
theorem CommandEncoding.dvRank0 : CommandEncoding.Statement .dvRank0 := by unfold CommandEncoding.Statement; decide
theorem CommandEncoding.dvSelect1 : CommandEncoding.Statement .dvSelect1 := by unfold CommandEncoding.Statement; decide
theorem CommandEncoding.dvSelect0 : CommandEncoding.Statement .dvSelect0 := by unfold CommandEncoding.Statement; decide
theorem CommandEncoding.dvSelects : CommandEncoding.Statement .dvSelects := by unfold CommandEncoding.Statement; decide
theorem CommandEncoding.dvInsert : CommandEncoding.Statement .dvInsert := by unfold CommandEncoding.Statement; decide
theorem CommandEncoding.dvRemove : CommandEncoding.Statement .dvRemove := by unfold CommandEncoding.Statement; decide
theorem CommandEncoding.dvTest : CommandEncoding.Statement .dvTest := by unfold CommandEncoding.Statement; decide
theorem CommandEncoding.dvReadw : CommandEncoding.Statement .dvReadw := by unfold CommandEncoding.Statement; decide
theorem CommandEncoding.dvClear : CommandEncoding.Statement .dvClear := by unfold CommandEncoding.Statement; decide

end Sys2Proof.Laws
end

