-- ==== Sys2Proof/Tests/Slice0.lean ====
section
/-! SUPPORT. Tests: the expected values are those of spec/95_test_vectors.md and of the rules' own examples, never the
model's. Then witnesses: for each statement with hypotheses, concrete states and operands that meet them. -/

namespace Sys2Proof.Tests

open Sys2Proof.Machine

/-- RES and NF of a next state. -/
def answer : Host.Outcome State Fault Refusal → Option (Word × Bool)
  | .next t => some (t.res, t.nf)
  | _ => none

/-- STATUS of a next state, as the host reads it. -/
def status : Host.Outcome State Fault Refusal → Option Word
  | .next t => some (readReg t .status)
  | _ => none

/-- DVLEN and DV of a next state. -/
def vector : Host.Outcome State Fault Refusal → Option (Nat × Memory)
  | .next t => some (t.dvlen, t.dv)
  | _ => none

/-- What the port has answered. -/
def answers : Host.Outcome State Fault Refusal → Option (List Word)
  | .next t => some t.replies
  | _ => none

/-- Whether the machine stopped with a fault. -/
def stopped : Host.Outcome State Fault Refusal → Option Fault
  | .fault r => some r
  | _ => none

/-- The reset state with the operands given: state `Z` of 95 §2.4. -/
def stZ (a b : Word) : State := { State.reset with opa := a, opb := b }

/-- State `E` of 41_dense_query.md with OPA given. -/
def stE (a : Word) : State :=
  { State.reset with opa := a, dvlen := 4, dv := [(0, 0x8000_0000_0000_0001#64), (1, 1#64), (3, 0x100#64)] }

/-- State `E` at P_SELECT0_LIMIT = CAPACITY. -/
def stEcap (a : Word) : State := { stE a with params := { Params.default with select0Limit := .capacity } }

/-- State `G` of 95 §2.4: position 65599 only. -/
def stG (a : Word) : State :=
  { State.reset with opa := a, dvlen := 1025, dv := [(1024, 0x8000_0000_0000_0000#64)] }

/-- The window at its reset base. -/
def cmdWrite (v : Word) : Input := .write 0 (bytesOfWord v)

/-! ### Well-formedness smoke tests: each check refuses an ill-formed record -/

theorem test_default_params_wellFormed : Params.default.wellFormed = true := by decide
theorem test_maxWords_zero_refused : ({ Params.default with maxWords := 0 } : Params).wellFormed = false := by decide
theorem test_maxWords_65536_refused : ({ Params.default with maxWords := 65536 } : Params).wellFormed = false := by
  decide
theorem test_base_off_window_refused : ({ Params.default with base := 0x20 } : Params).wellFormed = false := by decide
theorem test_every_command_wellFormed : Instr.dvSelects.wellFormed = true := by decide
theorem test_memory_unsorted_refused : Memory.wf [(3, 1#64), (1, 1#64)] = false := by decide
theorem test_memory_zero_word_refused : Memory.wf [(1, 0#64)] = false := by decide
theorem test_reset_memory_wf : Memory.wf State.reset.dv = true := by decide

/-! ### Decoding: words written out from 30_encoding.md R70 and R72 -/

theorem test_decode_word_kernel : [0x01#64, 0x02#64, 0x03#64, 0x04#64, 0x05#64, 0x06#64, 0x07#64].map decodeWord =
    [.ok .popcnt, .ok .rank1, .ok .rank0, .ok .select1, .ok .select0, .ok .clz, .ok .ctz] := by decide
theorem test_decode_dense_query : [0x10#64, 0x11#64, 0x12#64, 0x13#64, 0x14#64, 0x15#64].map decodeWord =
    [.ok .dvCount, .ok .dvRank1, .ok .dvRank0, .ok .dvSelect1, .ok .dvSelect0, .ok .dvSelects] := by decide
theorem test_decode_dense_storage : [0x20#64, 0x21#64, 0x22#64, 0x23#64, 0x24#64].map decodeWord =
    [.ok .dvInsert, .ok .dvRemove, .ok .dvTest, .ok .dvReadw, .ok .dvClear] := by decide
theorem test_decode_bit_by_bit : decodeWord
    0b00000000_00000000_00000000_00000000_00000000_00000000_00000000_00010101#64 = .ok .dvSelects := by decide
theorem test_decode_reserved_opcodes :
    [0x00#64, 0x08#64, 0x0F#64, 0x16#64, 0x1F#64, 0x25#64, 0xFF#64].map decodeWord =
      List.replicate 7 (.error .reservedOpcode) := by decide
theorem test_decode_reserved_bits : [0x101#64, 0x8000_0000_0000_0001#64].map decodeWord =
    List.replicate 2 (.error .reservedBits) := by decide
theorem test_decode_bytes_little_endian :
    decodeBytes [0x23#8, 0#8, 0#8, 0#8, 0#8, 0#8, 0#8, 0#8, 0xAA#8] = .ok (.dvReadw, [0xAA#8]) := by decide
theorem test_decode_bytes_truncated : decodeBytes [0x01#8, 0#8] = .error .truncated := by decide
theorem test_decode_table_word : decodeTableWord 64 0x24 = some .dvClear := by decide
theorem test_fetch_word_runs_first : answer (step (State.reset.withFetchWord 64 0x07)) = some (64#64, false) := by
  decide

/-! ### Word kernel: 95 §1.1, §1.2, §2.1 to §2.3, §2.6 -/

theorem test_popcnt_literal : answer (exec .popcnt (stZ 0x5_4A55#64 0#64)) = some (9#64, false) := by decide
theorem test_popcnt_all_ones : answer (exec .popcnt (stZ 0xFFFF_FFFF_FFFF_FFFF#64 0#64)) = some (64#64, false) := by
  decide
theorem test_rank1_literal : [0#64, 1#64, 2#64, 4#64, 8#64, 16#64, 19#64, 20#64].map
    (fun i => answer (exec .rank1 (stZ 0x5_4A55#64 i))) =
    [0#64, 1#64, 1#64, 2#64, 4#64, 7#64, 9#64, 9#64].map (fun r => some (r, false)) := by decide
theorem test_rank1_past_64_faults : status (exec .rank1 (stZ 0xFF#64 65#64)) = some 0x20#64 := by decide
theorem test_rank0_at_63_and_64 : [63#64, 64#64].map (fun i => answer (exec .rank0 (stZ 0x00FF_00FF_00FF_00FF#64 i))) =
    [some (31#64, false), some (32#64, false)] := by decide
theorem test_rank0_huge_faults : status (exec .rank0 (stZ 0#64 0xFFFF_FFFF_FFFF_FFFF#64)) = some 0x20#64 := by decide
theorem test_select1_literal : [0#64, 1#64, 2#64, 3#64, 4#64, 5#64, 6#64, 7#64].map
    (fun c => answer (exec .select1 (stZ 0xA_0969#64 c))) =
    [0#64, 3#64, 5#64, 6#64, 8#64, 11#64, 17#64, 19#64].map (fun r => some (r, false)) := by decide
theorem test_select1_not_found : [8#64, 0xFFFF_FFFF_FFFF_FFFF#64].map
    (fun c => answer (exec .select1 (stZ 0xA_0969#64 c))) =
    List.replicate 2 (some (0xFFFF_FFFF_FFFF_FFFF#64, true)) := by decide
theorem test_select0_found : [0#64, 5#64].map (fun c => answer (exec .select0 (stZ 0xA_0969#64 c))) =
    [some (1#64, false), some (10#64, false)] := by decide
theorem test_select0_not_found : answer (exec .select0 (stZ 0xFFFF_FFFF_FFFF_FFFF#64 0#64)) =
    some (0xFFFF_FFFF_FFFF_FFFF#64, true) := by decide
theorem test_clz : [0#64, 1#64, 0x8000_0000_0000_0000#64, 0xA_0969#64].map
    (fun w => answer (exec .clz (stZ w 0#64))) =
    [some (64#64, false), some (63#64, false), some (0#64, false), some (44#64, false)] := by decide
theorem test_ctz : [0#64, 1#64, 0x8000_0000_0000_0000#64, 0x100#64].map (fun w => answer (exec .ctz (stZ w 0#64))) =
    [some (64#64, false), some (0#64, false), some (63#64, false), some (8#64, false)] := by decide

/-! ### Dense queries: 41_dense_query.md's examples, 95 §2.4 -/

theorem test_dvCount : answer (exec .dvCount (stE 0#64)) = some (4#64, false) := by decide
theorem test_dvCount_empty : answer (exec .dvCount (stZ 0#64 0#64)) = some (0#64, false) := by decide
theorem test_dvRank1 : [64#64, 65#64, 201#64, 1000#64, 0xFFFF_FFFF_FFFF_FFFF#64].map
    (fun i => answer (exec .dvRank1 (stE i))) =
    [2#64, 3#64, 4#64, 4#64, 4#64].map (fun r => some (r, false)) := by decide
theorem test_dvRank1_guard_word : answer (exec .dvRank1 (stG 65600#64)) = some (1#64, false) := by decide +kernel
theorem test_dvRank0 : [65#64, 201#64, 1000#64].map (fun i => answer (exec .dvRank0 (stE i))) =
    [62#64, 197#64, 996#64].map (fun r => some (r, false)) := by decide
theorem test_dvRank0_top : answer (exec .dvRank0 (stE 0xFFFF_FFFF_FFFF_FFFF#64)) =
    some (0xFFFF_FFFF_FFFF_FFFB#64, false) := by decide
theorem test_dvSelect1 : [2#64, 3#64].map (fun c => answer (exec .dvSelect1 (stE c))) =
    [some (64#64, false), some (200#64, false)] := by decide
theorem test_dvSelect1_not_found : answer (exec .dvSelect1 (stE 4#64)) =
    some (0xFFFF_FFFF_FFFF_FFFF#64, true) := by decide
theorem test_dvSelects : [3#64, 4#64].map (fun c => answer (exec .dvSelects (stE c))) =
    [some (200#64, false), some (0xFFFF_FFFF_FFFF_FFFF#64, true)] := by decide
theorem test_dvSelects_guard_word : answer (exec .dvSelects (stG 0#64)) = some (65599#64, false) := by decide +kernel
theorem test_dvSelect0_length : [0#64, 61#64, 62#64, 251#64, 252#64].map
    (fun c => answer (exec .dvSelect0 (stE c))) =
    [some (1#64, false), some (62#64, false), some (65#64, false), some (255#64, false),
      some (0xFFFF_FFFF_FFFF_FFFF#64, true)] := by decide
theorem test_dvSelect0_capacity : answer (exec .dvSelect0 (stEcap 252#64)) = some (256#64, false) := by decide

/-! ### Dense storage: 42_dense_storage.md's examples, 95 §2.5, §2.6 -/

theorem test_dvInsert_grows : vector (exec .dvInsert (stZ 200#64 0#64)) = some (4, [(3, 0x100#64)]) ∧
    answer (exec .dvInsert (stZ 200#64 0#64)) = some (1#64, false) ∧
    answer (exec .dvInsert (stE 200#64)) = some (0#64, false) := by decide
theorem test_dvInsert_cap : status (exec .dvInsert (stZ 65599#64 0#64)) = some 0x00#64 ∧
    status (exec .dvInsert (stZ 65600#64 0#64)) = some 0x30#64 ∧
    status (exec .dvInsert { stZ 64#64 0#64 with params := { Params.default with maxWords := 1 } }) = some 0x30#64 := by
  decide
theorem test_dvRemove : vector (exec .dvRemove (stE 63#64)) = some (4, [(0, 1#64), (1, 1#64), (3, 0x100#64)]) ∧
    answer (exec .dvRemove (stE 63#64)) = some (1#64, false) := by decide
theorem test_dvRemove_last_bit_and_beyond : vector (exec .dvRemove (stE 200#64)) =
      some (4, [(0, 0x8000_0000_0000_0001#64), (1, 1#64)]) ∧
    answer (exec .dvRemove (stE 0xFFFF_FFFF_FFFF_FFFF#64)) = some (0#64, false) ∧
    status (exec .dvRemove (stE 0xFFFF_FFFF_FFFF_FFFF#64)) = some 0#64 := by decide
theorem test_dvTest : [64#64, 65#64, 0xFFFF_FFFF_FFFF_FFFF#64].map (fun i => answer (exec .dvTest (stE i))) =
    [some (1#64, false), some (0#64, false), some (0#64, false)] := by decide
theorem test_dvReadw : [0#64, 3#64, 4#64, 0xFFFF_FFFF_FFFF_FFFF#64].map (fun k => answer (exec .dvReadw (stE k))) =
    [0x8000_0000_0000_0001#64, 0x100#64, 0#64, 0#64].map (fun r => some (r, false)) := by decide
theorem test_dvClear : vector (exec .dvClear (stE 0#64)) = some (0, []) ∧
    answer (exec .dvClear (stE 0#64)) = some (0#64, false) := by decide

/-! ### Port, faults, lockout, reset: 95 §2.6, programs P3 and P5 -/

theorem test_illegal_words : [0x00#64, 0x08#64, 0x16#64, 0xFF#64, 0x101#64, 0x8000_0000_0000_0001#64].map
    (fun v => status (step (State.reset.withInput (cmdWrite v)))) = List.replicate 6 (some 0x10#64) := by decide
theorem test_lockout_refuses_clear :
    step (({ stE 0#64 with err := .capacity } : State).withInput (cmdWrite 0x24#64)) =
      .next { stE 0#64 with err := .capacity } := by rfl
theorem test_reset_leaves_lockout : status (step (({ stE 0#64 with err := .capacity } : State).withInput .reset)) =
    some 0#64 := by decide
theorem test_cfg_default : answers (step (State.reset.withInput (.read 0x30 8))) = some [0x0040_0401#64] := by decide
theorem test_cfg_capacity : answers (step ((stEcap 0#64).withInput (.read 0x30 8))) = some [0x0140_0401#64] := by decide
theorem test_read_cmd_is_zero : answers (step ((stE 5#64).withInput (.read 0x00 8))) = some [0#64] := by decide
theorem test_read_dvlen : answers (step ((stG 5#64).withInput (.read 0x28 8))) = some [1025#64] := by decide
theorem test_write_opa_little_endian : step (State.reset.withInput
    (.write 0x08 [0x55#8, 0x4A#8, 0x05#8, 0#8, 0#8, 0#8, 0#8, 0#8])) = .next (stZ 0x5_4A55#64 0#64) := by rfl
theorem test_write_res_ignored : step ((stE 1#64).withInput (.write 0x18 (bytesOfWord 7#64))) = .next (stE 1#64) := by
  rfl
theorem test_access_not_admitted : [(0x08, 4), (0x0C, 8), (0x40, 8)].map
    (fun a => stopped (step (State.reset.withInput (.read a.1 a.2)))) =
    List.replicate 3 (some Fault.notAdmitted) := by decide
theorem test_idle_step : step State.reset = .next State.reset := by rfl

/-! ### The assembler's notation (R76, R77) and the informative algorithms -/

theorem test_asm_value : [value "0x0000_0000_0005_4A55".toList, value "65_600".toList, value "0x".toList,
    value "12G".toList, value "18446744073709551616".toList] =
    [some 0x5_4A55#64, some 65600#64, none, none, none] := by decide
/-- The model's choice where R76 is silent (log 18): no digit, no value; an underscore beside a digit is ignored. -/
theorem test_asm_value_without_digits : ["".toList, "_".toList, "0x_".toList, "0x__".toList].map value =
    List.replicate 4 none ∧ ["_7".toList, "0x_A".toList].map value = [some 7#64, some 10#64] := by decide
theorem test_asm_statement : [statement ["wr", "OPA", "200"], statement ["DV_INSERT"], statement ["rd", "STATUS"],
    statement ["rd", "CMD"]] =
    [some (.wrOpa 200#64), some (.command .dvInsert), some (.rd .status), none] := by decide
theorem test_asm_pseudo : expand (.select 0xA_0969#64 6#64) =
    some [.wrOpa 0xA_0969#64, .wrOpb 6#64, .command .select1] := by decide
theorem test_broadword : bwCount 0x5_4A55#64 = 9#64 ∧ bwSelectRaw 0xA_0969#64 6#64 = 17#64 := by decide
theorem test_binary_search : binarySearchSelect (stE 0#64) 3 = some 200 ∧ binarySearchSelect (stE 0#64) 4 = none := by
  decide

/-! ### Witnesses: the hypotheses of each statement are met, clause by clause, at the ends of their ranges -/

theorem stE_inv (a : Word) : (stE a).Inv := ⟨rfl, rfl, rfl, show 4 ≤ 1025 by decide⟩

/-- A sample of every clause of DecodeAndEncodeAgree and OnlyListedOpcodesDecode. -/
theorem witness_OnlyListedOpcodesDecode : (∀ n ∈ [0x01, 0x07, 0x10, 0x15, 0x20, 0x24], listedOpcode n) ∧
    (∀ n ∈ [0x00, 0x08, 0x0F, 0x16, 0x1F, 0x25, 0xFF], n < 256 ∧ ¬ listedOpcode n) ∧
    256 ≤ (0x100#64).toNat ∧ 256 ≤ (0xFFFF_FFFF_FFFF_FFFF#64).toNat := by decide
theorem witness_StepRunsDecodedCommand : decodeBytes (bytesOfWord 0x24#64) = .ok (.dvClear, []) := by decide
theorem witness_IllegalWordRaisesIllegal : State.reset.err = .none ∧ ¬ listedOpcode (0x00#64).toNat ∧
    ¬ listedOpcode (0x101#64).toNat := by decide
/-- Each code is left by some CMD write with no fault recorded; the bounds 64 and 65, 65599 and 65600 part the cases. -/
theorem witness_ErrorCausesExactly : (stZ 65600#64 65#64).err = .none ∧
    [0x00#64, 0x02#64, 0x03#64, 0x20#64, 0x01#64].map
      (fun v => status (step ((stZ 65600#64 65#64).withInput (cmdWrite v)))) =
        [some 0x10#64, some 0x20#64, some 0x20#64, some 0x30#64, some 0x00#64] ∧
    [0x02#64, 0x03#64, 0x20#64].map (fun v => status (step ((stZ 65599#64 64#64).withInput (cmdWrite v)))) =
        [some 0x00#64, some 0x00#64, some 0x00#64] := by decide
theorem witness_FaultIsPrecise : (stZ 65600#64 65#64).err = .none ∧
    step ((stZ 65600#64 65#64).withInput (cmdWrite 0x20#64)) = .next { stZ 65600#64 65#64 with err := .capacity } ∧
    ErrCode.capacity ≠ .none := ⟨rfl, rfl, by decide⟩
theorem witness_LockoutUntilReset : ({ stE 5#64 with err := .illegal } : State).err ≠ .none ∧
    step (({ stE 5#64 with err := .illegal } : State).withInput .reset) = .next State.reset ∧
    step (({ stE 5#64 with err := .illegal } : State).withInput (cmdWrite 0x24#64)) =
      .next { stE 5#64 with err := .illegal } := ⟨by decide, rfl, rfl⟩
theorem witness_ErrIsSticky : step (({ stE 5#64 with err := .illegal } : State).withInput (cmdWrite 0x24#64)) =
      .next { stE 5#64 with err := .illegal } ∧
    step ((stE 5#64).withInput (cmdWrite 0x00#64)) = .next { stE 5#64 with err := .illegal } := ⟨rfl, rfl⟩
/-- For POPCNT, CLZ and CTZ, and every other statement whose only hypothesis is that no fault is recorded. -/
theorem witness_no_fault_recorded : State.reset.err = .none ∧ (stE 0#64).err = .none ∧ (stG 0#64).err = .none := by
  decide
theorem witness_rank_in_range_and_past : (stZ 0xFF#64 0#64).opb.toNat ≤ 64 ∧ (stZ 0xFF#64 64#64).opb.toNat ≤ 64 ∧
    64 < (stZ 0xFF#64 65#64).opb.toNat := by decide
theorem witness_select1_both_clauses :
    (stZ 0xA_0969#64 7#64).opb.toNat < setBelow (stZ 0xA_0969#64 7#64).opa.getLsbD 64 ∧
    setBelow (stZ 0xA_0969#64 8#64).opa.getLsbD 64 ≤ (stZ 0xA_0969#64 8#64).opb.toNat := by decide
theorem witness_select0_both_clauses :
    (stZ 0xA_0969#64 55#64).opb.toNat < clearBelow (stZ 0xA_0969#64 55#64).opa.getLsbD 64 ∧
    clearBelow (stZ 0xA_0969#64 56#64).opa.getLsbD 64 ≤ (stZ 0xA_0969#64 56#64).opb.toNat := by decide
theorem witness_clz_ctz_both_clauses : (stZ 0#64 0#64).opa = 0#64 ∧ (stZ 1#64 0#64).opa ≠ 0#64 := by decide
theorem witness_WordKernelLaws : (stZ 0xA_0969#64 64#64).opb = 64#64 ∧ (3#64).toNat ≤ (64#64).toNat ∧
    (64#64).toNat ≤ 64 := by decide
theorem witness_WordKernelTouchesOnlyResult :
    exec .rank1 (stZ 0xFF#64 65#64) = .next { stZ 0xFF#64 65#64 with err := .operand } ∧
    exec .popcnt (stZ 0xFF#64 65#64) = .next { stZ 0xFF#64 65#64 with res := 8#64 } ∧
    (stE 0xFF#64).opa = (stZ 0xFF#64 0#64).opa ∧ (stE 0xFF#64).opb = (stZ 0xFF#64 0#64).opb := ⟨rfl, rfl, rfl, rfl⟩
theorem witness_UnreadOperandsDoNotMatter : exec .dvClear (stE 5#64) = .next (stZ 5#64 0#64) ∧
    exec .dvCount (stE 5#64) = .next { stE 5#64 with res := 4#64 } := ⟨rfl, rfl⟩
/-- The clauses of DvCountSumsTheWords: the empty vector, a length at most the cap, and a full block of one word. -/
theorem witness_DvCount_clauses : (stZ 0#64 0#64).dvlen = 0 ∧ (stG 0#64).dvlen ≤ (stG 0#64).params.maxWords ∧
    (∀ k < 1, Memory.read [(0, 0xFFFF_FFFF_FFFF_FFFF#64)] k = 0xFFFF_FFFF_FFFF_FFFF#64) := by decide
theorem witness_dense_past_the_length : 64 * (stE 256#64).dvlen ≤ (stE 256#64).opa.toNat := by decide
theorem witness_dvSelect1_both_clauses :
    (stE 3#64).opa.toNat < onesSpec (stE 3#64) (stE 3#64).dvlen ∧
    onesSpec (stE 4#64) (stE 4#64).dvlen ≤ (stE 4#64).opa.toNat := by decide
/-- Both clauses of DV_SELECT0 at LENGTH, and the found clause at CAPACITY, where the last clear bit has rank
65600 - 4 - 1. -/
theorem witness_dvSelect0_both_clauses :
    (stE 251#64).opa.toNat < 64 * 4 - onesSpec (stE 251#64) 4 ∧
    64 * 4 - onesSpec (stE 252#64) 4 ≤ (stE 252#64).opa.toNat ∧
    (stEcap 65595#64).opa.toNat < 64 * 1025 - onesSpec (stEcap 65595#64) 1025 ∧
    64 * 1025 - onesSpec (stEcap 65596#64) 1025 ≤ (stEcap 65596#64).opa.toNat := by decide
theorem witness_DenseQueryLaws : (stE 3#64).Inv ∧ (stE 3#64).opa.toNat < onesSpec (stE 3#64) (stE 3#64).dvlen ∧
    (stE 256#64).opa.toNat = 64 * (stE 256#64).dvlen ∧ (64#64).toNat ≤ (65#64).toNat :=
  ⟨stE_inv _, by decide, by decide, by decide⟩
theorem witness_DenseQueriesTouchOnlyResult :
    exec .dvReadw (stE 3#64) = .next { stE 3#64 with res := 0x100#64 } := rfl
theorem witness_ResultsDoNotWrap : (stE 3#64).Inv ∧ (stE 3#64).err = .none ∧
    exec .dvCount (stE 3#64) = .next { stE 3#64 with res := 4#64 } ∧
    exec .dvRank1 (stE 3#64) = .next { stE 3#64 with res := 1#64 } ∧
    exec .dvRank0 (stE 3#64) = .next { stE 3#64 with res := 2#64 } ∧
    exec .dvSelect1 (stE 3#64) = .next { stE 3#64 with res := 200#64 } :=
  ⟨stE_inv _, rfl, rfl, rfl, rfl, rfl⟩
theorem witness_NotFoundFlagMarksFailedSelects : (stE 4#64).Inv ∧ (stE 4#64).err = .none ∧
    exec .dvSelect1 (stE 4#64) = .next { stE 4#64 with res := 0xFFFF_FFFF_FFFF_FFFF#64, nf := true } :=
  ⟨stE_inv _, rfl, rfl⟩
theorem witness_dvInsert_both_sides_of_the_cap :
    (stE 65599#64).opa.toNat < 64 * (stE 65599#64).params.maxWords ∧
    64 * (stE 65600#64).params.maxWords ≤ (stE 65600#64).opa.toNat := by decide
theorem witness_dvInsert_of_a_set_bit : (stE 200#64).opa.toNat < 64 * (stE 200#64).params.maxWords ∧
    (Memory.read (stE 200#64).dv ((stE 200#64).opa.toNat / 64)).getLsbD ((stE 200#64).opa.toNat % 64) = true := by decide
theorem witness_DvClear_lowers_the_length : exec .dvClear (stE 5#64) = .next (stZ 5#64 0#64) ∧
    (stZ 5#64 0#64).dvlen < (stE 5#64).dvlen := ⟨rfl, by decide⟩
theorem witness_dvRemove_both_clauses : Memory.wf (stE 255#64).dv = true ∧
    (stE 255#64).opa.toNat / 64 < (stE 255#64).dvlen ∧ (stE 256#64).dvlen ≤ (stE 256#64).opa.toNat / 64 := by decide
theorem witness_dvTest_both_clauses : (stE 255#64).opa.toNat < 64 * (stE 255#64).dvlen ∧
    64 * (stE 256#64).dvlen ≤ (stE 256#64).opa.toNat := by decide
theorem witness_dvReadw_both_clauses : (stE 3#64).opa.toNat < (stE 3#64).dvlen ∧
    (stE 4#64).dvlen ≤ (stE 4#64).opa.toNat := by decide
theorem witness_InsertRemoveTestLaws : (stE 65599#64).Inv ∧ (stE 65599#64).err = .none ∧
    (stE 65599#64).opa.toNat < 64 * (stE 65599#64).params.maxWords := ⟨stE_inv _, rfl, by decide⟩
theorem witness_InsertAllBuildsTheSet : State.reset.params.wellFormed = true ∧ State.reset.err = .none ∧
    State.reset.dv = [] ∧ State.reset.dvlen = 0 ∧
    (∀ i ∈ [0, 63, 64, 200, 200, 65599], i < 64 * State.reset.params.maxWords) := by decide
theorem witness_StorageChangesOnlyByItsCommands :
    step ((stE 5#64).withInput (cmdWrite 0x24#64)) = .next (stZ 5#64 0#64) ∧ (stZ 5#64 0#64).dv ≠ (stE 5#64).dv ∧
    (stZ 5#64 0#64).dvlen < (stE 5#64).dvlen := ⟨rfl, by decide, by decide⟩
theorem witness_InvariantKeptByEveryStep : ((stE 5#64).withInput (cmdWrite 0x24#64)).Inv ∧
    step ((stE 5#64).withInput (cmdWrite 0x24#64)) = .next (stZ 5#64 0#64) := ⟨stE_inv 5#64, rfl⟩
theorem witness_InvariantHoldsAtReset : Params.default.wellFormed = true ∧ (stE 5#64).Inv ∧ (stE 5#64).dvlen ≤ 4 :=
  ⟨by decide, stE_inv _, by decide⟩
theorem witness_CfgReportsTheParameters : (stE 0#64).params.wellFormed = true ∧
    (stEcap 0#64).params.wellFormed = true ∧
    ({ Params.default with maxWords := 65535 } : Params).wellFormed = true ∧
    ({ Params.default with maxWords := 1 } : Params).wellFormed = true := by decide
theorem witness_ReadsAnswerTheRegisterMap : (0x38, 0#64) ∈ [(0x00, 0#64), (0x38, 0#64)] ∧
    step ((stE 5#64).withInput (.read (0 + 0x08) 8)) = .next { stE 5#64 with replies := [5#64] } := ⟨by decide, rfl⟩
theorem witness_WritesFollowTheRegisterMap : (bytesOfWord 7#64).length = 8 := by decide
theorem witness_OnlyAlignedWindowAccessesAdmitted :
    (8 = 8 ∧ 0 ≤ 0x38 ∧ 0x38 < 0 + 0x40 ∧ (0x38 - 0) % 8 = 0) ∧
    ¬ (8 = 8 ∧ 0 ≤ 0x40 ∧ 0x40 < 0 + 0x40 ∧ (0x40 - 0) % 8 = 0) ∧
    ¬ (4 = 8 ∧ 0 ≤ 0x08 ∧ 0x08 < 0 + 0x40 ∧ (0x08 - 0) % 8 = 0) := by decide
theorem witness_OnlyWritesAndResetChangeState : State.reset.inputs = [] ∧
    step ((stE 5#64).withInput (.read 0x08 8)) = .next { stE 5#64 with replies := [5#64] } := ⟨rfl, rfl⟩
theorem witness_PseudoInstructions : (stE 5#64).inputs = [] ∧ readsA .dvTest = true ∧ readsB .select1 = true := by
  decide
theorem witness_BroadwordSelectAgrees : 7 < setBelow (0xA_0969#64).getLsbD 64 := by decide

end Sys2Proof.Tests
end

/-! ### The dense queries, one equation per command, and the size of their results -/

namespace Sys2Proof.Machine

section Results
variable {s : State}

theorem exec_dvCount (he : s.err = .none) :
    exec .dvCount s = .next (s.complete (zext64 (total s)) false) := unlessLocked_open _ he

/-- R121: the answer of DV_RANK1 is the number of set positions below OPA. -/
theorem exec_dvRank1 (he : s.err = .none) :
    exec .dvRank1 s = .next (s.complete (zext64 (setBelow (dvBit s) s.opa.toNat)) false) := by
  rw [← dvRankValue_eq]
  exact unlessLocked_open _ he

/-- R122: the answer of DV_RANK0 is the number of clear positions below OPA. -/
theorem exec_dvRank0 (he : s.err = .none) :
    exec .dvRank0 s = .next (s.complete (zext64 (clearBelow (dvBit s) s.opa.toNat)) false) := by
  rw [clearBelow_eq, ← dvRankValue_eq]
  exact unlessLocked_open _ he

theorem exec_dvSelect1 (he : s.err = .none) :
    exec .dvSelect1 s = .next (s.completeSelect (dvSelectOne s s.opa.toNat)) := unlessLocked_open _ he

theorem exec_dvSelect0 (he : s.err = .none) :
    exec .dvSelect0 s = .next (s.completeSelect (dvSelectZero s s.opa.toNat)) := unlessLocked_open _ he

/-- R125: DV_SELECTS answers by definition what DV_SELECT1 answers. -/
theorem exec_dvSelects_eq (s : State) : exec .dvSelects s = exec .dvSelect1 s := rfl

theorem clearBelow_le (f : Nat → Bool) (n : Nat) : clearBelow f n ≤ n := by
  rw [clearBelow_eq]
  exact Nat.sub_le _ _

/-- R6: CAP_BITS of a legal parameter record fits in 64 bits. -/
theorem capBits_lt_of_wellFormed {p : Params} (h : p.wellFormed = true) : p.capBits < 2 ^ 64 := by
  simp only [Params.wellFormed, Bool.and_eq_true, decide_eq_true_eq] at h
  obtain ⟨⟨-, hmax⟩, -⟩ := h
  show 64 * p.maxWords < 2 ^ 64
  omega

/-- R120: no vector holds more than CAP_BITS set positions. -/
theorem total_le_capBits (hi : s.Inv) : total s ≤ s.params.capBits := by
  obtain ⟨-, -, -, hlen⟩ := hi
  calc total s = setBelow (dvBit s) (64 * s.dvlen) := total_eq s
    _ ≤ 64 * s.dvlen := setBelow_le _ _
    _ ≤ s.params.capBits := Nat.mul_le_mul_left 64 hlen

/-- R124: under either setting of P_SELECT0_LIMIT the words searched are among the MAX_WORDS stored. -/
theorem select0Words_le_maxWords (hi : s.Inv) : select0Words s ≤ s.params.maxWords := by
  obtain ⟨-, -, -, hlen⟩ := hi
  unfold select0Words
  split
  · exact hlen
  · exact Nat.le_refl _

/-- A position that DV_SELECT1 finds is below the vector's length. -/
theorem dvSelectOne_lt {c q : Nat} (h : dvSelectOne s c = some q) : q < 64 * s.dvlen := by
  rcases Nat.lt_or_ge c (total s) with hc | hc
  · obtain ⟨q', hq', hlt, -⟩ := dvSelectOne_eq_some hc
    cases h.symm.trans hq'
    exact hlt
  · cases h.symm.trans (dvSelectOne_eq_none hc)

/-- A position that DV_SELECT0 finds lies in the words searched. -/
theorem dvSelectZero_lt {c q : Nat} (h : dvSelectZero s c = some q) : q < 64 * select0Words s := by
  rcases Nat.lt_or_ge c (zeros s (select0Words s)) with hc | hc
  · obtain ⟨q', hq', hlt, -⟩ := dvSelectZero_eq_some hc
    cases h.symm.trans hq'
    exact hlt
  · cases h.symm.trans (dvSelectZero_eq_none hc)

/-- The RES of a select that finds a position below `n`, as a number, when `n` fits in 64 bits. -/
theorem toNat_selectRes_lt {r : Option Nat} {n : Nat} (hn : n < 2 ^ 64) (hr : ∀ q, r = some q → q < n)
    (hnf : selectNF r = false) : (selectRes r).toNat < n := by
  cases r with
  | none => cases hnf
  | some q =>
    have hq : q < n := hr q rfl
    rw [selectRes, toNat_zext64 (by omega)]
    exact hq

/-- R120, R10: DV_COUNT writes the exact count. -/
theorem dvCount_exact {t : State} (hi : s.Inv) (he : s.err = .none) (h : exec .dvCount s = .next t) :
    t.res.toNat = onesSpec s s.dvlen ∧ t.res.toNat ≤ s.params.capBits := by
  cases (exec_dvCount he).symm.trans h
  have hle := total_le_capBits hi
  rw [State.complete_res, toNat_zext64 (hle.trans_lt (capBits_lt_of_wellFormed hi.1))]
  exact ⟨(onesSpec_eq s s.dvlen).symm, hle⟩

/-- R121, R10: DV_RANK1 writes the exact rank, with no need of the invariant: a rank is at most its position. -/
theorem dvRank1_exact {t : State} (he : s.err = .none) (h : exec .dvRank1 s = .next t) :
    t.res.toNat = setBelow (dvBit s) s.opa.toNat ∧ t.res.toNat ≤ s.opa.toNat := by
  cases (exec_dvRank1 he).symm.trans h
  have hle := setBelow_le (dvBit s) s.opa.toNat
  rw [State.complete_res, toNat_zext64 (hle.trans_lt s.opa.isLt)]
  exact ⟨rfl, hle⟩

/-- R122, R10: DV_RANK0 writes the exact rank of clear positions. -/
theorem dvRank0_exact {t : State} (he : s.err = .none) (h : exec .dvRank0 s = .next t) :
    t.res.toNat = clearBelow (dvBit s) s.opa.toNat ∧ t.res.toNat ≤ s.opa.toNat := by
  cases (exec_dvRank0 he).symm.trans h
  have hle := clearBelow_le (dvBit s) s.opa.toNat
  rw [State.complete_res, toNat_zext64 (hle.trans_lt s.opa.isLt)]
  exact ⟨rfl, hle⟩

/-- R123, R10: a position found by DV_SELECT1 is below CAP_BITS. -/
theorem dvSelect1_res_lt {t : State} (hi : s.Inv) (he : s.err = .none) (h : exec .dvSelect1 s = .next t)
    (hnf : t.nf = false) : t.res.toNat < s.params.capBits := by
  cases (exec_dvSelect1 he).symm.trans h
  obtain ⟨hwf, -, -, hlen⟩ := hi
  exact toNat_selectRes_lt (capBits_lt_of_wellFormed hwf)
    (fun q hq => (dvSelectOne_lt hq).trans_le (Nat.mul_le_mul_left 64 hlen)) hnf

/-- R124, R10: a position found by DV_SELECT0 is below CAP_BITS. -/
theorem dvSelect0_res_lt {t : State} (hi : s.Inv) (he : s.err = .none) (h : exec .dvSelect0 s = .next t)
    (hnf : t.nf = false) : t.res.toNat < s.params.capBits := by
  cases (exec_dvSelect0 he).symm.trans h
  exact toNat_selectRes_lt (capBits_lt_of_wellFormed hi.1)
    (fun q hq => (dvSelectZero_lt hq).trans_le (Nat.mul_le_mul_left 64 (select0Words_le_maxWords hi))) hnf

end Results

/-- Settles O30: a count is at most CAP_BITS, a rank at most its position, and a found position below CAP_BITS, so each
fits in 64 bits. -/
theorem resultsDoNotWrap : Obligations.ResultsDoNotWrap := by
  intro s t hi he
  refine ⟨dvCount_exact hi he, dvRank1_exact he, dvRank0_exact he, fun i hmem h hnf => ?_⟩
  simp only [List.mem_cons, List.not_mem_nil, or_false] at hmem
  rcases hmem with rfl | rfl | rfl
  · exact dvSelect1_res_lt hi he h hnf
  · exact dvSelect0_res_lt hi he h hnf
  · exact dvSelect1_res_lt hi he (exec_dvSelects_eq s ▸ h) hnf

end Sys2Proof.Machine

/-! ### The invariant (10_state.md R30, R32): at reset, and along every step -/

namespace Sys2Proof.Machine

section Invariant
variable {s t : State}

/-- The invariant speaks of the parameters, the storage and its length only. -/
theorem inv_of_same_vector (hp : t.params = s.params) (hdv : t.dv = s.dv) (hlen : t.dvlen = s.dvlen)
    (hi : s.Inv) : t.Inv := by
  unfold State.Inv
  rw [hp, hdv, hlen]
  exact hi

/-- The empty vector of length 0 meets the invariant at legal parameters. -/
theorem inv_of_empty_vector (hp : t.params.wellFormed = true) (hdv : t.dv = []) (hlen : t.dvlen = 0) : t.Inv := by
  unfold State.Inv
  rw [hdv, hlen]
  exact ⟨hp, Memory.wf_nil, Memory.below_nil 0, Nat.zero_le _⟩

theorem resetWith_inv {p : Params} (hp : p.wellFormed = true) : (State.resetWith p).Inv :=
  inv_of_empty_vector hp rfl rfl

/-- Every command keeps the invariant: DV_INSERT grows the vector only below CAP_BITS, DV_REMOVE writes only below the
length, DV_CLEAR empties it, and no other command touches it. -/
theorem exec_inv {i : Instr} (hi : s.Inv) (h : exec i s = .next t) : t.Inv := by
  rcases exec_cases h with ⟨-, rfl⟩ | ⟨-, hopen⟩
  · exact hi
  rcases hopen with ⟨-, -, rfl⟩ | ⟨-, -, rfl⟩ | ⟨-, -, v, b, rfl⟩ | ⟨-, hcap, rfl⟩ | ⟨-, rfl⟩ | ⟨-, rfl⟩
  · exact inv_of_same_vector rfl rfl rfl hi
  · exact inv_of_same_vector rfl rfl rfl hi
  · exact inv_of_same_vector rfl rfl rfl hi
  · exact insertBit_inv hi hcap
  · exact removeBit_inv hi _
  · exact inv_of_empty_vector hi.1 rfl rfl

theorem commandWrite_inv {v : Word} (hi : s.Inv) (h : commandWrite s v = .next t) : t.Inv := by
  rcases commandWrite_cases h with ⟨-, rfl⟩ | ⟨-, -, rfl⟩ | ⟨-, i, -, hx⟩
  · exact hi
  · exact inv_of_same_vector rfl rfl rfl hi
  · exact exec_inv hi hx

theorem perform_inv {e : Input} (hi : s.Inv) (h : perform s e = .next t) : t.Inv := by
  rcases perform_cases h with ⟨-, rfl⟩ | ⟨_, _, _, -, rfl⟩ | ⟨_, _, -, -, hw⟩
  · exact inv_of_empty_vector hi.1 rfl rfl
  · exact inv_of_same_vector rfl rfl rfl hi
  rcases hw with ⟨-, hc⟩ | ⟨-, rfl⟩ | ⟨-, rfl⟩ | ⟨-, -, -, rfl⟩
  · exact commandWrite_inv hi hc
  · exact inv_of_same_vector rfl rfl rfl hi
  · exact inv_of_same_vector rfl rfl rfl hi
  · exact hi

end Invariant

/-- Settles O41: an idle step changes nothing, and every input the port performs keeps the invariant. -/
theorem invariantKeptByEveryStep : Obligations.InvariantKeptByEveryStep := by
  intro s t hi h
  rcases step_cases h with ⟨-, rfl⟩ | ⟨e, l, -, -, hp⟩
  · exact hi
  · exact perform_inv (inv_of_same_vector (t := s.setInputs l) rfl rfl rfl hi) hp

/-- Settles O42: the reset vector is empty, and no word at or past the bound on the listed indices is stored. -/
theorem invariantHoldsAtReset : Obligations.InvariantHoldsAtReset :=
  ⟨fun _ hp => resetWith_inv hp, resetWith_inv (by decide), fun _ _ ⟨_, _, hbelow, _⟩ hk =>
    Memory.read_of_below hbelow hk⟩

end Sys2Proof.Machine

/-! ### What a step leaves unchanged: STATUS.ERR once set (R27), the parameters (R6, R29), all state on a read (R53) -/

namespace Sys2Proof.Machine

section Frames
variable {s t : State}

/-- R163, R164: a CMD write made while a fault is recorded leaves ERR as it was; so do all inputs but reset. -/
theorem perform_err {e : Input} (h : perform s e = .next t) : t.err = s.err ∨ s.err = .none ∨ e = .reset := by
  rcases perform_cases h with ⟨rfl, -⟩ | ⟨_, _, _, -, rfl⟩ | ⟨_, _, -, -, hw⟩
  · exact .inr (.inr rfl)
  · exact .inl rfl
  rcases hw with ⟨-, hc⟩ | ⟨-, rfl⟩ | ⟨-, rfl⟩ | ⟨-, -, -, rfl⟩
  · rcases commandWrite_cases hc with ⟨-, rfl⟩ | ⟨he, -⟩ | ⟨he, -⟩
    · exact .inl rfl
    · exact .inr (.inl he)
    · exact .inr (.inl he)
  · exact .inl rfl
  · exact .inl rfl
  · exact .inl rfl

theorem exec_params {i : Instr} (h : exec i s = .next t) : t.params = s.params := by
  rcases exec_cases h with ⟨-, rfl⟩ | ⟨-, hopen⟩
  · rfl
  rcases hopen with ⟨-, -, rfl⟩ | ⟨-, -, rfl⟩ | ⟨-, -, v, b, rfl⟩ | ⟨-, -, rfl⟩ | ⟨-, rfl⟩ | ⟨-, rfl⟩
  · rfl
  · rfl
  · rfl
  · rfl
  · exact removeBit_params s _
  · rfl

theorem commandWrite_params {v : Word} (h : commandWrite s v = .next t) : t.params = s.params := by
  rcases commandWrite_cases h with ⟨-, rfl⟩ | ⟨-, -, rfl⟩ | ⟨-, i, -, hx⟩
  · rfl
  · rfl
  · exact exec_params hx

theorem perform_params {e : Input} (h : perform s e = .next t) : t.params = s.params := by
  rcases perform_cases h with ⟨-, rfl⟩ | ⟨_, _, _, -, rfl⟩ | ⟨_, _, -, -, hw⟩
  · rfl
  · rfl
  rcases hw with ⟨-, hc⟩ | ⟨-, rfl⟩ | ⟨-, rfl⟩ | ⟨-, -, -, rfl⟩
  · exact commandWrite_params hc
  all_goals rfl

/-- R6: no step changes the parameters. -/
theorem step_params (h : step s = .next t) : t.params = s.params := by
  rcases step_cases h with ⟨-, rfl⟩ | ⟨e, l, -, -, hp⟩
  · rfl
  · exact (perform_params hp).trans (State.setInputs_params s l)

end Frames

/-- Settles O9: a step is idle or performs the port's oldest input, and only reset overwrites a recorded fault. -/
theorem errIsSticky : Obligations.ErrIsSticky := by
  intro s t h
  rcases step_cases h with ⟨-, rfl⟩ | ⟨e, l, hin, -, hp⟩
  · exact .inl rfl
  rcases perform_err hp with herr | hnone | rfl
  · exact .inl herr
  · exact .inr (.inl hnone)
  · exact .inr (.inr (by rw [hin]; rfl))

/-- Settles O50: a read's one effect is the answer. -/
theorem onlyWritesAndResetChangeState : Obligations.OnlyWritesAndResetChangeState := by
  refine ⟨fun s t addr width h => ?_, fun s hin => step_of_no_input hin⟩
  rw [step_withInput] at h
  rcases perform_cases h with ⟨he, -⟩ | ⟨_, _, v, -, rfl⟩ | ⟨_, _, he, -⟩
  · cases he
  · rfl
  · cases he

end Sys2Proof.Machine

/-! ### STATUS and CFG as the host reads them (R25 to R29), and the values reset gives (R36) -/

namespace Sys2Proof.Machine

/-- R6: MAX_WORDS of a legal parameter record lies in [1, 65535]. -/
theorem maxWords_bounds_of_wellFormed {p : Params} (h : p.wellFormed = true) :
    1 ≤ p.maxWords ∧ p.maxWords ≤ 65535 := by
  simp only [Params.wellFormed, Bool.and_eq_true, decide_eq_true_eq] at h
  exact h.1

/-- CFG bits 15:0. -/
theorem cfgWord_maxWords (p : Params) : (cfgWord p).extractLsb' 0 16 = BitVec.ofNat 16 p.maxWords :=
  BitVec.extractLsb'_append_eq_right

/-- CFG bits 23:16, WBITS. -/
theorem cfgWord_wbits (p : Params) : (cfgWord p).extractLsb' 16 8 = 0x40#8 := by
  rw [cfgWord, BitVec.extractLsb'_append_eq_of_le (by decide)]
  exact BitVec.extractLsb'_append_eq_right

/-- CFG bit 24, S0LIM. -/
theorem cfgWord_s0lim (p : Params) : (cfgWord p).getLsbD 24 = true ↔ p.select0Limit = .capacity := by
  have hbit : (cfgWord p).getLsbD 24 = (s0lim p.select0Limit).getLsbD 0 := by
    simp only [cfgWord, BitVec.getLsbD_append]
    rfl
  rw [hbit]
  cases p.select0Limit <;> decide

/-- CFG bits 63:25. -/
theorem cfgWord_upper (p : Params) : (cfgWord p).extractLsb' 25 39 = 0#39 := by
  rw [cfgWord, BitVec.extractLsb'_append_eq_of_le (by decide), BitVec.extractLsb'_append_eq_of_le (by decide)]
  exact BitVec.extractLsb'_append_eq_left

theorem cfgWord_default : cfgWord Params.default = 0x0000_0000_0040_0401#64 := by decide

/-- Settles O45: the four fields of CFG are the parts it is put together from, MAX_WORDS fits in 16 bits, and CFG reads
the parameters, which no step changes. -/
theorem cfgReportsTheParameters : Obligations.CfgReportsTheParameters := by
  refine ⟨fun s hwf => ⟨?_, cfgWord_wbits s.params, cfgWord_s0lim s.params, cfgWord_upper s.params⟩,
    fun s t h => congrArg cfgWord (step_params h), cfgWord_default⟩
  obtain ⟨-, hmax⟩ := maxWords_bounds_of_wellFormed hwf
  show ((cfgWord s.params).extractLsb' 0 16).toNat = s.params.maxWords
  rw [cfgWord_maxWords, BitVec.toNat_ofNat, Nat.mod_eq_of_lt (by omega)]

/-- R25: every bit of STATUS, for each of the eight values it can have. -/
theorem statusWord_fields (nf : Bool) (e : ErrCode) :
    (statusWord nf e).getLsbD 0 = nf ∧ (statusWord nf e).extractLsb' 1 3 = 0#3 ∧
      (statusWord nf e).extractLsb' 4 4 = e.code ∧ (statusWord nf e).extractLsb' 8 56 = 0#56 := by
  cases nf <;> cases e <;> decide

theorem statusWord_clear : statusWord false .none = 0#64 := by decide

/-- Settles O44: STATUS is `statusWord` of NF and ERR. -/
theorem statusLayout : Obligations.StatusLayout :=
  ⟨fun s => statusWord_fields s.nf s.err, rfl, rfl, rfl, rfl⟩

/-- Settles O43: the step that takes reset leaves `resetBlock`, whose fields are the reset values. -/
theorem resetClearsEverything : Obligations.ResetClearsEverything :=
  ⟨fun s => ⟨s.resetBlock, step_withInput s .reset, rfl, rfl, rfl, statusWord_clear, rfl, rfl, rfl, Memory.read_nil,
      rfl, rfl⟩,
    rfl, rfl, rfl, statusWord_clear, rfl, Memory.read_nil, cfgWord_default⟩

end Sys2Proof.Machine

/-! ### A CMD write runs the command it encodes (R20, 20_memory.md R60) -/

namespace Sys2Proof.Machine

theorem decodeWord_encode (i : Instr) : decodeWord (encode i) = .ok i := by cases i <;> rfl

/-- R55, R75: bytes that are one command and nothing more are eight, and their word is that command's. -/
theorem decodeBytes_single {bytes : List Byte} {i : Instr} (h : decodeBytes bytes = .ok (i, [])) :
    bytes.length = 8 ∧ decodeWord (wordOfBytes bytes) = .ok i := by
  unfold decodeBytes at h
  split at h
  · cases h
  · rename_i hlong
    split at h
    · rename_i j hd
      obtain ⟨rfl, hdrop⟩ : j = i ∧ bytes.drop 8 = [] := by simpa using h
      have hshort : bytes.length ≤ 8 := List.drop_eq_nil_iff.mp hdrop
      rw [List.take_of_length_le hshort] at hd
      exact ⟨by omega, hd⟩
    · cases h

/-- The lockout that a CMD write checks is the one each command checks, so the write adds nothing (log 14). -/
theorem commandWrite_of_decoded {s : State} {v : Word} {i : Instr} (h : decodeWord v = .ok i) :
    commandWrite s v = exec i s := by
  by_cases he : s.err = .none
  · rw [commandWrite, unlessLocked_open _ he, h]
  · rw [commandWrite, unlessLocked_locked _ he, exec_of_locked he]

/-- A write of eight bytes at CMD's address is a CMD write of their word. -/
theorem perform_cmd_bytes {s : State} {bytes : List Byte} (hlen : bytes.length = 8) :
    perform s (.write (s.params.base + WindowReg.cmd.offset) bytes) = commandWrite s (wordOfBytes bytes) := by
  rw [← bytesOfWord_wordOfBytes hlen, perform_write, wordOfBytes_bytesOfWord]
  rfl

/-- The word that `withFetchWord` sends is the encoding itself: 64 bits hold all of it. -/
theorem withFetchWord_encode (s : State) (i : Instr) : s.withFetchWord 64 (encode i).toNat =
    s.withInput (.write (s.params.base + WindowReg.cmd.offset) (bytesOfWord (encode i))) := by
  rw [State.withFetchWord, Nat.mod_eq_of_lt (encode i).isLt, BitVec.ofNat_toNat, BitVec.setWidth_eq]

/-- Settles O4: the step performs the CMD write, and the write runs the command its bytes decode to. -/
theorem stepRunsDecodedCommand : Obligations.StepRunsDecodedCommand := by
  refine ⟨fun s bytes i h => ?_, fun s i => ?_⟩
  · obtain ⟨hlen, hd⟩ := decodeBytes_single h
    exact (perform_cmd_bytes hlen).trans (commandWrite_of_decoded hd)
  · rw [withFetchWord_encode, step_withInput, perform_write]
    exact commandWrite_of_decoded (decodeWord_encode i)

end Sys2Proof.Machine

/-! ### The not-found flag (R26) -/

namespace Sys2Proof.Machine

section NotFound
variable {s t : State}

/-- The five selects. -/
abbrev isSelect (i : Instr) : Prop := i ∈ [Instr.select1, .select0, .dvSelect1, .dvSelect0, .dvSelects]

/-- R7: NOTFOUND is no position of a legal vector. -/
theorem capBits_lt_notFound {p : Params} (h : p.wellFormed = true) : p.capBits < notFound.toNat := by
  obtain ⟨-, hmax⟩ := maxWords_bounds_of_wellFormed h
  show 64 * p.maxWords < 2 ^ 64 - 1
  omega

/-- A position is told from NOTFOUND by RES alone, as long as it is below the pattern of -1. -/
theorem selectNF_iff_selectRes {r : Option Nat} (hr : ∀ q, r = some q → q < notFound.toNat) :
    selectNF r = true ↔ selectRes r = notFound := by
  cases r with
  | none => exact iff_of_true rfl rfl
  | some q =>
    have hq : q < notFound.toNat := hr q rfl
    have hres : (selectRes (some q)).toNat = q := toNat_zext64 (hq.trans notFound.isLt)
    refine iff_of_false Bool.false_ne_true fun h => ?_
    rw [h] at hres
    omega

/-- R103: a position found in a word is below 64. -/
theorem selectOfWord_lt {w : Word} {c q : Nat} (h : selectOfWord w c = some q) : q < 64 :=
  (selectOfWord_eq_some.mp h).1

/-- Every select writes RES and NF from one search, and a position it finds is below CAP_BITS: in a word, below the
length, or in the words searched. -/
theorem exec_isSelect {i : Instr} (hs : isSelect i) (hi : s.Inv) (he : s.err = .none) :
    ∃ r, exec i s = .next (s.completeSelect r) ∧ ∀ q, r = some q → q < s.params.capBits := by
  have hlim : 64 * select0Words s ≤ s.params.capBits := Nat.mul_le_mul_left 64 (select0Words_le_maxWords hi)
  obtain ⟨hwf, -, -, hlen⟩ := hi
  have hone : 64 ≤ s.params.capBits := Nat.mul_le_mul_left 64 (maxWords_bounds_of_wellFormed hwf).1
  have hlen' : 64 * s.dvlen ≤ s.params.capBits := Nat.mul_le_mul_left 64 hlen
  simp only [isSelect, List.mem_cons, List.not_mem_nil, or_false] at hs
  rcases hs with rfl | rfl | rfl | rfl | rfl
  · exact ⟨_, unlessLocked_open _ he, fun _ h => (selectOfWord_lt h).trans_le hone⟩
  · exact ⟨_, unlessLocked_open _ he, fun _ h => (selectOfWord_lt h).trans_le hone⟩
  · exact ⟨_, exec_dvSelect1 he, fun _ h => (dvSelectOne_lt h).trans_le hlen'⟩
  · exact ⟨_, exec_dvSelect0 he, fun _ h => (dvSelectZero_lt h).trans_le hlim⟩
  · exact ⟨_, exec_dvSelect1 he, fun _ h => (dvSelectOne_lt h).trans_le hlen'⟩

/-- A completion with NF = 0. -/
theorem nf_of_complete {v : Word} (he : s.err = .none)
    (h : unlessLocked s (.next (s.complete v false)) = .next t) : t.nf = false := by
  cases (unlessLocked_open _ he).symm.trans h
  rfl

/-- RANK1 and RANK0 complete with NF = 0, or leave their error. -/
theorem nf_of_rankCommand {v : Nat} (he : s.err = .none) (h : rankCommand s v = .next t) (ht : t.err = .none) :
    t.nf = false := by
  rw [rankCommand, unlessLocked_open _ he] at h
  split at h
  · cases h; cases ht
  · cases h; rfl

/-- DV_INSERT completes with NF = 0, or leaves its error. -/
theorem nf_of_execDvInsert (he : s.err = .none) (h : execDvInsert s = .next t) (ht : t.err = .none) :
    t.nf = false := by
  rw [execDvInsert, unlessLocked_open _ he] at h
  split at h
  · cases h; cases ht
  · cases h; rfl

/-- R26: every other command that completes clears NF. -/
theorem exec_not_isSelect_nf {i : Instr} (hs : ¬ isSelect i) (he : s.err = .none) (h : exec i s = .next t)
    (ht : t.err = .none) : t.nf = false := by
  cases i
  case rank1 | rank0 => exact nf_of_rankCommand he h ht
  case dvInsert => exact nf_of_execDvInsert he h ht
  case dvRemove =>
    cases (unlessLocked_open _ he).symm.trans h
    exact removeBit_nf s _
  case dvClear =>
    cases (unlessLocked_open _ he).symm.trans h
    rfl
  case select1 | select0 | dvSelect1 | dvSelect0 | dvSelects => exact absurd (by decide) hs
  all_goals exact nf_of_complete he h

end NotFound

/-- Settles O31: a select writes NF and RES from one search, whose positions stay below NOTFOUND; every other command
that completes clears NF. -/
theorem notFoundFlagMarksFailedSelects : Obligations.NotFoundFlagMarksFailedSelects := by
  intro i s t hi he h ht
  by_cases hs : isSelect i
  · obtain ⟨r, hx, hr⟩ := exec_isSelect hs hi he
    cases hx.symm.trans h
    have hlt : ∀ q, r = some q → q < notFound.toNat := fun q hq => (hr q hq).trans (capBits_lt_notFound hi.1)
    exact (selectNF_iff_selectRes hlt).trans (and_iff_right hs).symm
  · rw [exec_not_isSelect_nf hs he h ht]
    exact iff_of_false Bool.false_ne_true fun hr => hs hr.1

end Sys2Proof.Machine

/-! ### The host window (20_memory.md R50 to R55) -/

namespace Sys2Proof.Machine

/-- R51: the registers of the window in the order of their offsets. -/
def windowRegs : List WindowReg := [.cmd, .opa, .opb, .res, .status, .dvlen, .cfg, .reserved]

/-- R53: the registers whose writes are ignored, in the order of their offsets. -/
def readOnlyRegs : List WindowReg := [.res, .status, .dvlen, .cfg, .reserved]

/-- R52: an aligned 64-bit access within the window reaches a register. -/
theorem exists_admitted {p : Params} {addr width : Nat}
    (h : width = 8 ∧ p.base ≤ addr ∧ addr < p.base + 0x40 ∧ (addr - p.base) % 8 = 0) :
    ∃ r, admitted p addr width = some r :=
  Option.ne_none_iff_exists'.mp fun hnone => admitted_eq_none.mp hnone h

section Window
variable {s : State}

/-- R162: a CMD write has a next state, whatever it writes. -/
theorem commandWrite_answers (s : State) (v : Word) : ∃ t, commandWrite s v = .next t := by
  by_cases he : s.err = .none
  · rw [commandWrite, unlessLocked_open _ he]
    cases decodeWord v with
    | error e => exact ⟨_, rfl⟩
    | ok i => exact exec_answers i s
  · exact ⟨s, unlessLocked_locked _ he⟩

/-- R51, R53: a write of any register has a next state. -/
theorem writeReg_answers (s : State) (r : WindowReg) (v : Word) : ∃ t, writeReg s r v = .next t := by
  cases r
  case cmd => exact commandWrite_answers s v
  all_goals exact ⟨_, rfl⟩

theorem writeReg_readOnly {r : WindowReg} (h : r ∈ readOnlyRegs) (v : Word) : writeReg s r v = .next s := by
  simp only [readOnlyRegs, List.mem_cons, List.not_mem_nil, or_false] at h
  rcases h with rfl | rfl | rfl | rfl | rfl <;> rfl

theorem perform_read_of_admitted {addr width : Nat} {r : WindowReg} (h : admitted s.params addr width = some r) :
    perform s (.read addr width) = .next (s.reply (readReg s r)) := by
  simp only [perform, hostRead, h]

theorem perform_read_of_not_admitted {addr width : Nat} (h : admitted s.params addr width = none) :
    perform s (.read addr width) = .fault .notAdmitted := by
  simp only [perform, hostRead, h]

theorem perform_write_of_admitted {addr : Nat} {bytes : List Byte} {r : WindowReg}
    (h : admitted s.params addr bytes.length = some r) :
    perform s (.write addr bytes) = writeReg s r (wordOfBytes bytes) := by
  simp only [perform, hostWrite, h]

theorem perform_write_of_not_admitted {addr : Nat} {bytes : List Byte}
    (h : admitted s.params addr bytes.length = none) : perform s (.write addr bytes) = .fault .notAdmitted := by
  simp only [perform, hostWrite, h]

/-- A write of eight bytes at a register's address writes their word (R55). -/
theorem step_write_bytes {bytes : List Byte} (hlen : bytes.length = 8) (r : WindowReg) :
    step (s.withInput (.write (s.params.base + r.offset) bytes)) = writeReg s r (wordOfBytes bytes) :=
  perform_write_of_admitted (admitted_eq_some.mpr ⟨hlen, rfl⟩)

end Window

theorem getElem_bytesOfWord (v : Word) {j : Nat} (hj : j < (bytesOfWord v).length) :
    (bytesOfWord v)[j] = busByte v j := by
  rw [length_bytesOfWord] at hj
  interval_cases j <;> rfl

/-- R55: byte `j` of the word that eight bytes make is byte `j` of the list. -/
theorem busByte_wordOfBytes {bytes : List Byte} (hlen : bytes.length = 8) {j : Nat} (hj : j < bytes.length) :
    busByte (wordOfBytes bytes) j = bytes[j] := by
  have hbytes : bytesOfWord (wordOfBytes bytes) = bytes := bytesOfWord_wordOfBytes hlen
  rw [← getElem_bytesOfWord (wordOfBytes bytes) (by rwa [hbytes])]
  exact List.getElem_of_eq hbytes _

/-- Settles O48: an access has a next state when it reaches a register, and is not admitted when it reaches none. -/
theorem onlyAlignedWindowAccessesAdmitted : Obligations.OnlyAlignedWindowAccessesAdmitted := by
  refine fun s addr => ⟨fun width => ⟨fun h => ?_, fun h => ?_⟩, fun bytes => ⟨fun h => ?_, fun h => ?_⟩⟩
  · obtain ⟨r, hr⟩ := exists_admitted h
    exact ⟨_, perform_read_of_admitted hr⟩
  · exact perform_read_of_not_admitted (admitted_eq_none.mpr h)
  · obtain ⟨r, hr⟩ := exists_admitted h
    obtain ⟨t, ht⟩ := writeReg_answers s r (wordOfBytes bytes)
    exact ⟨t, (perform_write_of_admitted hr).trans ht⟩
  · exact perform_write_of_not_admitted (admitted_eq_none.mpr h)

/-- Settles O46: the list of the statement pairs each register's offset with what `readReg` gives for it. -/
theorem readsAnswerTheRegisterMap : Obligations.ReadsAnswerTheRegisterMap := by
  intro s o v h
  have hreg : (o, v) ∈ windowRegs.map fun r => (r.offset, readReg s r) := h
  obtain ⟨r, -, hr⟩ := List.mem_map.mp hreg
  cases hr
  exact perform_read s r

/-- Settles O47: the write at OPA's and at OPB's offset replaces that register, and the other five offsets are those of
the read-only registers. -/
theorem writesFollowTheRegisterMap : Obligations.WritesFollowTheRegisterMap := by
  refine fun s bytes hlen => ⟨step_write_bytes hlen .opa, step_write_bytes hlen .opb, fun o ho => ?_⟩
  have hreg : o ∈ readOnlyRegs.map WindowReg.offset := ho
  obtain ⟨r, hr, rfl⟩ := List.mem_map.mp hreg
  exact (step_write_bytes hlen r).trans (writeReg_readOnly hr _)

/-- Settles O49: the write leaves the word of its bytes in OPA. -/
theorem windowIsLittleEndian : Obligations.WindowIsLittleEndian :=
  ⟨fun _ _ hlen => ⟨_, step_write_bytes hlen .opa, fun _ hj => busByte_wordOfBytes hlen hj⟩,
    wordOfBytes_bytesOfWord⟩

end Sys2Proof.Machine

/-! ### What changes the storage array and its length (20_memory.md R58, R65; 10_state.md R33) -/

namespace Sys2Proof.Machine

/-- The three commands that may change DV or DVLEN (42_dense_storage.md R142, R143, R146). -/
def storageCommands : List Instr := [.dvInsert, .dvRemove, .dvClear]

/-- R71, R72: a word that decodes to a command is that command's word. -/
theorem eq_encode_of_decodeWord {v : Word} {i : Instr} (h : decodeWord v = .ok i) : v = encode i := by
  unfold decodeWord at h
  split at h
  · rename_i hrsv
    split at h
    · rename_i hop
      cases h
      have hlt : v.toNat < 256 := fieldRSV_eq_zero.mp hrsv
      apply BitVec.eq_of_toNat_eq
      rw [toNat_encode, ← instrOfOpcode_eq_some.mp hop, toNat_fieldOP, Nat.mod_eq_of_lt hlt]
    · cases h
  · cases h

section Storage
variable {s t : State}

/-- A command leaves the vector as it was, or is a storage command that ran; and then only DV_CLEAR shortens it:
DV_INSERT grows the length or keeps it, DV_REMOVE keeps it. -/
theorem exec_vector {i : Instr} (h : exec i s = .next t) :
    (t.dv = s.dv ∧ t.dvlen = s.dvlen) ∨ (i ∈ storageCommands ∧ (t.dvlen < s.dvlen → i = .dvClear)) := by
  rcases exec_cases h with ⟨-, rfl⟩ | ⟨-, hopen⟩
  · exact .inl ⟨rfl, rfl⟩
  rcases hopen with ⟨-, -, rfl⟩ | ⟨-, -, rfl⟩ | ⟨-, -, v, b, rfl⟩ | ⟨rfl, -, rfl⟩ | ⟨rfl, rfl⟩ | ⟨rfl, rfl⟩
  · exact .inl ⟨rfl, rfl⟩
  · exact .inl ⟨rfl, rfl⟩
  · exact .inl ⟨rfl, rfl⟩
  · refine .inr ⟨by decide, fun hlt => ?_⟩
    rw [insertBit_dvlen] at hlt
    omega
  · refine .inr ⟨by decide, fun hlt => ?_⟩
    rw [removeBit_dvlen] at hlt
    omega
  · exact .inr ⟨by decide, fun _ => rfl⟩

/-- R162, R164: only a CMD write of a storage command, with no fault recorded, changes the vector. -/
theorem commandWrite_vector {v : Word} (h : commandWrite s v = .next t) :
    (t.dv = s.dv ∧ t.dvlen = s.dvlen) ∨
      (s.err = .none ∧ ∃ i ∈ storageCommands, v = encode i ∧ (t.dvlen < s.dvlen → i = .dvClear)) := by
  rcases commandWrite_cases h with ⟨-, rfl⟩ | ⟨-, -, rfl⟩ | ⟨he, i, hd, hx⟩
  · exact .inl ⟨rfl, rfl⟩
  · exact .inl ⟨rfl, rfl⟩
  · exact (exec_vector hx).imp_right fun ⟨hi, hclear⟩ => ⟨he, i, hi, eq_encode_of_decodeWord hd, hclear⟩

/-- R65: an input leaves the vector as it was, is reset, or is a CMD write of a storage command that ran. -/
theorem perform_vector {e : Input} (h : perform s e = .next t) :
    (t.dv = s.dv ∧ t.dvlen = s.dvlen) ∨ e = .reset ∨
      (s.err = .none ∧ ∃ bytes, e = .write (s.params.base + WindowReg.cmd.offset) bytes ∧
        ∃ i ∈ storageCommands, wordOfBytes bytes = encode i ∧ (t.dvlen < s.dvlen → i = .dvClear)) := by
  rcases perform_cases h with ⟨rfl, -⟩ | ⟨_, _, _, -, rfl⟩ | ⟨_, bytes, he, -, hw⟩
  · exact .inr (.inl rfl)
  · exact .inl ⟨rfl, rfl⟩
  rcases hw with ⟨rfl, hc⟩ | ⟨-, rfl⟩ | ⟨-, rfl⟩ | ⟨-, -, -, rfl⟩
  · exact (commandWrite_vector hc).imp_right fun ⟨hnone, hi⟩ => .inr ⟨hnone, bytes, he, hi⟩
  all_goals exact .inl ⟨rfl, rfl⟩

end Storage

/-- Settles O40: what an input does to the vector, with the three storage commands' words written out. -/
theorem storageChangesOnlyByItsCommands : Obligations.StorageChangesOnlyByItsCommands := by
  intro s t e h
  rcases perform_vector h with ⟨hdv, hlen⟩ | rfl | ⟨hnone, bytes, he, i, hi, hword, hclear⟩
  · exact ⟨fun hne => (hne.elim (· hdv) (· hlen)).elim, fun hlt => absurd hlen hlt.ne⟩
  · exact ⟨fun _ => .inl rfl, fun _ => .inl rfl⟩
  · refine ⟨fun _ => .inr ⟨hnone, bytes, he, ?_⟩, fun hlt => .inr ⟨hnone, bytes, he, ?_⟩⟩
    · rw [hword]
      exact List.mem_map_of_mem (f := encode) hi
    · rw [hword, hclear hlt]
      rfl

end Sys2Proof.Machine

/-! ### Which values are commands (30_encoding.md R70 to R75) -/

namespace Sys2Proof.Machine

section Decoding
variable {v : Word} {i : Instr}

/-- R71: the encodings are the only words that decode, each to its own command. -/
theorem decodeWord_eq_ok : decodeWord v = .ok i ↔ v = encode i :=
  ⟨eq_encode_of_decodeWord, fun h => h ▸ decodeWord_encode i⟩

/-- R55, R75: bytes that begin with a word's eight decode as that word does, and what follows is left over. -/
theorem decodeBytes_bytesOfWord_append (v : Word) (rest : List Byte) :
    decodeBytes (bytesOfWord v ++ rest) = (decodeWord v).map (·, rest) := by
  have hlen : ¬ (bytesOfWord v ++ rest).length < 8 := by simp
  have htake : (bytesOfWord v ++ rest).take 8 = bytesOfWord v := List.take_left' (length_bytesOfWord v)
  have hdrop : (bytesOfWord v ++ rest).drop 8 = rest := List.drop_left' (length_bytesOfWord v)
  rw [decodeBytes, if_neg hlen, htake, hdrop, wordOfBytes_bytesOfWord]
  cases decodeWord v <;> rfl

theorem map_pair_eq_ok {x : Except DecodeReject Instr} {rest : List Byte} :
    x.map (·, rest) = .ok (i, rest) ↔ x = .ok i := by
  cases x <;> simp [Except.map]

/-- R72: the listed numbers are the opcodes of the eighteen commands. -/
theorem listedOpcode_iff {n : Nat} : listedOpcode n ↔ ∃ i, n = (opcode i).toNat := by
  constructor
  · rintro (⟨hlo, hhi⟩ | ⟨hlo, hhi⟩ | ⟨hlo, hhi⟩) <;> interval_cases n
    exacts [⟨.popcnt, rfl⟩, ⟨.rank1, rfl⟩, ⟨.rank0, rfl⟩, ⟨.select1, rfl⟩, ⟨.select0, rfl⟩, ⟨.clz, rfl⟩, ⟨.ctz, rfl⟩,
      ⟨.dvCount, rfl⟩, ⟨.dvRank1, rfl⟩, ⟨.dvRank0, rfl⟩, ⟨.dvSelect1, rfl⟩, ⟨.dvSelect0, rfl⟩, ⟨.dvSelects, rfl⟩,
      ⟨.dvInsert, rfl⟩, ⟨.dvRemove, rfl⟩, ⟨.dvTest, rfl⟩, ⟨.dvReadw, rfl⟩, ⟨.dvClear, rfl⟩]
  · rintro ⟨i, rfl⟩
    cases i <;> decide

theorem exists_decodeWord_eq_ok : (∃ i, decodeWord v = .ok i) ↔ listedOpcode v.toNat := by
  rw [listedOpcode_iff]
  exact exists_congr fun i => by rw [decodeWord_eq_ok, ← toNat_encode, BitVec.toNat_inj]

/-- R71: a word is a command, or is rejected for its reserved bits or for its opcode; it is never too short. -/
theorem decodeWord_cases (v : Word) :
    (∃ i, decodeWord v = .ok i) ∨ decodeWord v = .error .reservedBits ∨ decodeWord v = .error .reservedOpcode := by
  unfold decodeWord
  split
  · split
    · exact .inl ⟨_, rfl⟩
    · exact .inr (.inr rfl)
  · exact .inr (.inl rfl)

/-- R71: the reserved bits are looked at first. -/
theorem decodeWord_eq_reservedBits : decodeWord v = .error .reservedBits ↔ 256 ≤ v.toNat := by
  rw [← not_lt, ← fieldRSV_eq_zero, decodeWord]
  by_cases hrsv : fieldRSV v = 0#56
  · rw [if_pos hrsv]
    cases instrOfOpcode (fieldOP v) <;> simp [hrsv]
  · simp [hrsv]

/-- R74: what is neither a command nor rejected for its reserved bits has a reserved opcode. -/
theorem decodeWord_eq_reservedOpcode :
    decodeWord v = .error .reservedOpcode ↔ v.toNat < 256 ∧ ¬ listedOpcode v.toNat := by
  rw [← not_le, ← decodeWord_eq_reservedBits, ← exists_decodeWord_eq_ok]
  rcases decodeWord_cases v with ⟨i, h⟩ | h | h <;> simp [h]

end Decoding

/-- Settles O1: on the bus the bytes of a word decode as the word, and a word decodes to `i` only as its encoding. -/
theorem decodeAndEncodeAgree : Obligations.DecodeAndEncodeAgree := by
  refine ⟨fun v i => decodeWord_eq_ok, fun v rest i => ?_⟩
  rw [decodeBytes_bytesOfWord_append, map_pair_eq_ok, decodeWord_eq_ok]

/-- Settles O2: one lemma for each answer of the decoder. -/
theorem onlyListedOpcodesDecode : Obligations.OnlyListedOpcodesDecode := fun _ =>
  ⟨exists_decodeWord_eq_ok, decodeWord_eq_reservedBits, decodeWord_eq_reservedOpcode⟩

/-- Settles O3: the two accepted words are encodings, and the four rejected ones are placed by their size. -/
theorem opcodeTableWords : Obligations.OpcodeTableWords :=
  ⟨rfl, rfl, rfl, decodeWord_encode .dvRank0, decodeWord_encode .dvInsert,
    decodeWord_eq_reservedOpcode.mpr (by decide), decodeWord_eq_reservedOpcode.mpr (by decide),
    decodeWord_eq_reservedBits.mpr (by decide), decodeWord_eq_reservedBits.mpr (by decide)⟩

end Sys2Proof.Machine

/-! ### The operand registers a command does not read (30_encoding.md R73, 10_state.md R23) -/

namespace Sys2Proof.Machine

section Unread
variable {s t : State} {i : Instr}

/-- An update that keeps ERR and commutes with a command's effect commutes with the command under its lockout. -/
theorem unlessLocked_update {f : State → State} {o o' : Host.Outcome State Fault Refusal} (herr : (f s).err = s.err)
    (ho : ∀ u, o = .next u → o' = .next (f u)) (h : unlessLocked s o = .next t) :
    unlessLocked (f s) o' = .next (f t) := by
  by_cases he : s.err = .none
  · rw [unlessLocked_open _ he] at h
    rw [unlessLocked_open _ (herr.trans he)]
    exact ho t h
  · rw [unlessLocked_locked _ he] at h
    cases h
    exact unlessLocked_locked _ (herr ▸ he)

/-- The case of a command with one outcome. -/
theorem unlessLocked_next_update {f : State → State} {u : State} (herr : (f s).err = s.err)
    (h : unlessLocked s (.next u) = .next t) : unlessLocked (f s) (.next (f u)) = .next (f t) :=
  unlessLocked_update herr (by rintro _ ⟨⟩; rfl) h

theorem removeBit_setOpb (s : State) (k : Nat) (v : Word) : removeBit (s.setOpb v) k = (removeBit s k).setOpb v := by
  unfold removeBit removeAt
  rw [apply_ite (State.setOpb · v)]
  rfl

/-- R73: only DV_INSERT has a check of its own among the commands that do not read OPB, and that check reads OPA. -/
theorem exec_setOpb (hb : readsB i = false) (v : Word) (h : exec i s = .next t) :
    exec i (s.setOpb v) = .next (t.setOpb v) := by
  cases i
  case rank1 | rank0 | select1 | select0 => cases hb
  case dvInsert =>
    refine unlessLocked_update (f := (State.setOpb · v)) rfl (fun u hu => ?_) h
    by_cases hcap : s.params.capBits ≤ operandA s
    · rw [if_pos hcap] at hu
      cases hu
      exact if_pos hcap
    · rw [if_neg hcap] at hu
      cases hu
      exact if_neg hcap
  case dvRemove =>
    rw [exec, execDvRemove, removeBit_setOpb]
    exact unlessLocked_next_update (f := (State.setOpb · v)) rfl h
  all_goals exact unlessLocked_next_update (f := (State.setOpb · v)) rfl h

/-- R73: the commands without an operand do not see OPA. -/
theorem exec_setOpa (ha : readsA i = false) (v : Word) (h : exec i s = .next t) :
    exec i (s.setOpa v) = .next (t.setOpa v) := by
  cases i
  case dvCount | dvClear => exact unlessLocked_next_update (f := (State.setOpa · v)) rfl h
  all_goals cases ha

end Unread

/-- Settles O20: the listed commands are ones that do not read the register changed. -/
theorem unreadOperandsDoNotMatter : Obligations.UnreadOperandsDoNotMatter := by
  constructor
  · intro i hi
    have hb : readsB i = false := by revert i; decide
    exact fun s t v => exec_setOpb hb v
  · intro i hi
    have ha : readsA i = false := by revert i; decide
    exact fun s t v => exec_setOpa ha v

end Sys2Proof.Machine

/-! ### Pseudo-instructions (30_encoding.md R76, R77) -/

namespace Sys2Proof.Machine

section Pseudo
variable {s : State}

/-- The port of a block with nothing else waiting performs the first statement and keeps the others for later. -/
theorem step_load_cons (hin : s.inputs = []) (x : Stmt) (l : List Stmt) :
    step (s.load (x :: l)) = perform (s.load l) (inputOf s.params x) := by
  have hwait : s.load (x :: l) = (s.load l).withInput (inputOf s.params x) := by
    simp [State.load, State.withInput, State.setInputs, hin]
  rw [hwait, step_withInput]

theorem step_load_wrOpa (hin : s.inputs = []) (a : Word) (l : List Stmt) :
    step (s.load (.wrOpa a :: l)) = .next ((s.setOpa a).load l) :=
  (step_load_cons hin _ _).trans (perform_write (s.load l) .opa a)

theorem step_load_wrOpb (hin : s.inputs = []) (b : Word) (l : List Stmt) :
    step (s.load (.wrOpb b :: l)) = .next ((s.setOpb b).load l) :=
  (step_load_cons hin _ _).trans (perform_write (s.load l) .opb b)

theorem step_load_command (hin : s.inputs = []) (i : Instr) : step (s.load [.command i]) = exec i s := by
  have hnil : s.load [] = s := by simp [State.load, State.setInputs]
  calc step (s.load [.command i]) = perform (s.load []) (inputOf s.params (.command i)) := step_load_cons hin _ _
    _ = perform s (writeOf s.params .cmd (encode i)) := by rw [hnil]; rfl
    _ = commandWrite s (encode i) := perform_write s .cmd _
    _ = exec i s := commandWrite_of_decoded (decodeWord_encode i)

theorem expand_one_of_reads {i : Instr} (h : (readsA i && !readsB i) = true) (a : Word) :
    expand (.one i a) = some [.wrOpa a, .command i] := if_pos h

theorem expand_two_of_reads {i : Instr} (h : (readsA i && readsB i) = true) (a b : Word) :
    expand (.two i a b) = some [.wrOpa a, .wrOpb b, .command i] := if_pos h

theorem expand_one_eq_none {i : Instr} {a : Word} : expand (.one i a) = none ↔ (readsA i && !readsB i) = false := by
  simp [expand]

theorem expand_two_eq_none {i : Instr} {a b : Word} : expand (.two i a b) = none ↔ (readsA i && readsB i) = false := by
  simp [expand]

end Pseudo

/-- Settles O51: each statement of an expansion is one step, and which expansion exists is R72's column "reads". -/
theorem pseudoInstructionsWriteOperandsThenRun : Obligations.PseudoInstructionsWriteOperandsThenRun := by
  refine ⟨fun s i a hi hin => ?_, fun s i a b hi hin => ?_, fun a b => ⟨rfl, rfl⟩, fun a b i => ⟨?_, ?_⟩⟩
  · have hreads : (readsA i && !readsB i) = true := by revert i; decide
    exact ⟨_, _, expand_one_of_reads hreads a, step_load_wrOpa hin a _,
      step_load_command (s := s.setOpa a) hin i⟩
  · have hreads : (readsA i && readsB i) = true := by revert i; decide
    exact ⟨_, _, _, expand_two_of_reads hreads a b, step_load_wrOpa hin a _,
      step_load_wrOpb (s := s.setOpa a) hin b _, step_load_command (s := (s.setOpa a).setOpb b) hin i⟩
  · rw [expand_two_eq_none]
    cases i <;> decide
  · rw [expand_one_eq_none]
    cases i <;> decide

end Sys2Proof.Machine

/-! ### The word kernel (40_word_kernel.md R100 to R108) -/

namespace Sys2Proof.Machine

section WordPositions
variable {w : Word} {c i : Nat}

/-- R102: every position below `n` is set or clear. -/
theorem setBelow_add_clearBelow (f : Nat → Bool) (n : Nat) : setBelow f n + clearBelow f n = n := by
  rw [clearBelow_eq]
  exact Nat.add_sub_cancel' (setBelow_le f n)

/-- R104: the set bits of the complement are the clear bits of the word. -/
theorem setBelow_not_word (h : i ≤ 64) : setBelow (~~~w).getLsbD i = clearBelow w.getLsbD i := by
  rw [← setBelow_not]
  exact setBelow_congr fun j hj => by simp [show j < 64 by omega]

theorem getLsbD_not_eq_true (h : i < 64) : (~~~w).getLsbD i = true ↔ w.getLsbD i = false := by
  simp [h]

/-- R103: below the count the select of a word finds the one set bit of that rank. -/
theorem selectOfWord_of_lt_count (h : c < setBelow w.getLsbD 64) :
    ∃ p < 64, selectOfWord w c = some p ∧ w.getLsbD p = true ∧ setBelow w.getLsbD p = c ∧
      ∀ q < 64, w.getLsbD q = true → setBelow w.getLsbD q = c → q = p := by
  obtain ⟨p, hp, hbit, hrank⟩ := setBelow_exists w.getLsbD h
  exact ⟨p, hp, selectOfWord_eq_some.mpr ⟨hp, hbit, hrank⟩, hbit, hrank,
    fun q _ hq hc => setBelow_unique w.getLsbD hq hbit (hc.trans hrank.symm)⟩

/-- R105, R106: a nonzero word has a set bit. -/
theorem setBelow_pos_of_ne_zero (h : w ≠ 0#64) : 0 < setBelow w.getLsbD 64 := by
  rw [← count_eq]
  exact Nat.pos_of_ne_zero (mt count_eq_zero.mp h)

/-- A position with no set bit below a later one is clear. -/
theorem getLsbD_eq_false_of_setBelow_le {j n : Nat} (hj : j < n) (h : setBelow w.getLsbD n ≤ setBelow w.getLsbD j) :
    w.getLsbD j = false := by
  by_contra hset
  have := setBelow_lt_of_set w.getLsbD hj (Bool.eq_true_of_not_eq_false hset)
  omega

theorem leadingZeros_of_eq_zero (h : w = 0#64) : leadingZeros w = 64 := if_pos h

theorem trailingZeros_of_eq_zero (h : w = 0#64) : trailingZeros w = 64 := if_pos h

/-- R105: the set bit of the last rank has only clear bits above it. -/
theorem leadingZeros_of_ne_zero (h : w ≠ 0#64) :
    leadingZeros w < 64 ∧ (∀ j < 64, 64 - leadingZeros w ≤ j → w.getLsbD j = false) ∧
      w.getLsbD (63 - leadingZeros w) = true ∧
      setBelow w.getLsbD (63 - leadingZeros w) = setBelow w.getLsbD 64 - 1 := by
  have hpos := setBelow_pos_of_ne_zero h
  obtain ⟨p, hp, hsel, hbit, hrank, -⟩ := selectOfWord_of_lt_count (Nat.sub_lt hpos Nat.one_pos)
  have hn : leadingZeros w = 63 - p := by rw [leadingZeros, if_neg h, count_eq, hsel]; rfl
  have hback : 63 - (63 - p) = p := by omega
  rw [hn, hback]
  refine ⟨by omega, fun j hj hpj => getLsbD_eq_false_of_setBelow_le hj ?_, hbit, hrank⟩
  have hnext : setBelow w.getLsbD p < setBelow w.getLsbD j := setBelow_lt_of_set _ (by omega) hbit
  omega

/-- R106: the set bit of rank 0 has only clear bits below it. -/
theorem trailingZeros_of_ne_zero (h : w ≠ 0#64) :
    trailingZeros w < 64 ∧ (∀ j < trailingZeros w, w.getLsbD j = false) ∧ w.getLsbD (trailingZeros w) = true ∧
      setBelow w.getLsbD (trailingZeros w) = 0 := by
  obtain ⟨p, hp, hsel, hbit, hrank, -⟩ := selectOfWord_of_lt_count (setBelow_pos_of_ne_zero h)
  have hn : trailingZeros w = p := by rw [trailingZeros, if_neg h, hsel]; rfl
  rw [hn]
  exact ⟨hp, fun j hj => getLsbD_eq_false_of_setBelow_le hj (hrank ▸ Nat.zero_le _), hbit, hrank⟩

end WordPositions

section WordCommands
variable {s s' t : State} {i : Instr}

/-- R100: POPCNT answers the number of set bits. -/
theorem exec_popcnt (he : s.err = .none) :
    exec .popcnt s = .next (s.complete (zext64 (setBelow s.opa.getLsbD 64)) false) := by
  rw [← count_eq]
  exact unlessLocked_open _ he

theorem rankCommand_of_le {v : Nat} (he : s.err = .none) (hb : s.opb.toNat ≤ 64) :
    rankCommand s v = .next (s.complete (zext64 v) false) :=
  (unlessLocked_open _ he).trans (if_neg (Nat.not_lt.mpr hb))

/-- R160: the position of a rank above 64 is the one OPERAND error. -/
theorem rankCommand_of_gt {v : Nat} (he : s.err = .none) (hb : 64 < s.opb.toNat) :
    rankCommand s v = .next (s.raiseError .operand) :=
  (unlessLocked_open _ he).trans (if_pos hb)

/-- R101: RANK1 answers the number of set bits below OPB. -/
theorem exec_rank1 (he : s.err = .none) (hb : s.opb.toNat ≤ 64) :
    exec .rank1 s = .next (s.complete (zext64 (setBelow s.opa.getLsbD s.opb.toNat)) false) := by
  rw [← rankOfWord_eq hb]
  exact rankCommand_of_le he hb

/-- R102: RANK0 answers the number of clear bits below OPB. -/
theorem exec_rank0 (he : s.err = .none) (hb : s.opb.toNat ≤ 64) :
    exec .rank0 s = .next (s.complete (zext64 (clearBelow s.opa.getLsbD s.opb.toNat)) false) := by
  rw [clearBelow_eq, ← rankOfWord_eq hb]
  exact rankCommand_of_le he hb

theorem exec_select1 (he : s.err = .none) :
    exec .select1 s = .next (s.completeSelect (selectOfWord s.opa s.opb.toNat)) := unlessLocked_open _ he

/-- R104: SELECT0 searches the complement. -/
theorem exec_select0 (he : s.err = .none) :
    exec .select0 s = .next (s.completeSelect (selectOfWord (~~~s.opa) s.opb.toNat)) := unlessLocked_open _ he

theorem exec_clz (he : s.err = .none) :
    exec .clz s = .next (s.complete (zext64 (leadingZeros s.opa)) false) := unlessLocked_open _ he

theorem exec_ctz (he : s.err = .none) :
    exec .ctz s = .next (s.complete (zext64 (trailingZeros s.opa)) false) := unlessLocked_open _ he

theorem exec_select1_found {p : Nat} (he : s.err = .none) (h : selectOfWord s.opa s.opb.toNat = some p) :
    exec .select1 s = .next (s.complete (zext64 p) false) := by
  rw [exec_select1 he, h]
  rfl

theorem exec_select0_found {p : Nat} (he : s.err = .none) (h : selectOfWord (~~~s.opa) s.opb.toNat = some p) :
    exec .select0 s = .next (s.complete (zext64 p) false) := by
  rw [exec_select0 he, h]
  rfl

/-- R103: a rank that the word does not have. -/
theorem exec_select1_notFound (he : s.err = .none) (hc : setBelow s.opa.getLsbD 64 ≤ s.opb.toNat) :
    exec .select1 s = .next (s.complete notFound true) := by
  rw [exec_select1 he, selectOfWord_eq_none.mpr hc]
  rfl

/-- R104: a rank that the complement does not have. -/
theorem exec_select0_notFound (he : s.err = .none) (hc : clearBelow s.opa.getLsbD 64 ≤ s.opb.toNat) :
    exec .select0 s = .next (s.complete notFound true) := by
  rw [exec_select0 he, selectOfWord_eq_none.mpr ((setBelow_not_word (Nat.le_refl 64)).trans_le hc)]
  rfl

theorem zext64_toNat (v : Word) : zext64 v.toNat = v := BitVec.eq_of_toNat_eq (toNat_zext64 v.isLt)

/-- R101 and R102 in one word: the two ranks of a position in range add up to it. -/
theorem zext64_setBelow_add_clearBelow (f : Nat → Bool) (v : Word) :
    zext64 (setBelow f v.toNat) + zext64 (clearBelow f v.toNat) = v := by
  rw [zext64, zext64, ← BitVec.ofNat_add, setBelow_add_clearBelow]
  exact zext64_toNat v

/-- R101, R10: a rank at a position in range is the number RES shows. -/
theorem toNat_zext64_setBelow (f : Nat → Bool) (v : Word) : (zext64 (setBelow f v.toNat)).toNat = setBelow f v.toNat :=
  toNat_zext64 ((setBelow_le f v.toNat).trans_lt v.isLt)

/-- R107: the seven commands of the word kernel. -/
abbrev isWordKernel (i : Instr) : Prop := i ∈ [Instr.popcnt, .rank1, .rank0, .select1, .select0, .clz, .ctz]

/-- R107: a word-kernel command is refused under the lockout, raises OPERAND, or answers in RES and NF. -/
theorem exec_isWordKernel_cases (hk : isWordKernel i) (h : exec i s = .next t) :
    (s.err ≠ .none ∧ t = s) ∨
      (s.err = .none ∧ ((64 < s.opb.toNat ∧ t = s.raiseError .operand) ∨ ∃ v b, t = s.complete v b)) := by
  rcases exec_cases h with hlocked | ⟨he, ⟨-, hb, ht⟩ | ⟨rfl, -⟩ | ⟨-, -, ht⟩ | ⟨rfl, -⟩ | ⟨rfl, -⟩ | ⟨rfl, -⟩⟩
  · exact .inl hlocked
  · exact .inr ⟨he, .inl ⟨hb, ht⟩⟩
  · exact absurd hk (by decide)
  · exact .inr ⟨he, .inr ht⟩
  all_goals exact absurd hk (by decide)

/-- R107: with no fault recorded a word-kernel command answers from OPA and OPB alone. -/
theorem exec_isWordKernel_of_same_operands (hk : isWordKernel i) (he : s.err = .none) (he' : s'.err = .none)
    (ha : s'.opa = s.opa) (hb : s'.opb = s.opb) :
    (exec i s = .next (s.raiseError .operand) ∧ exec i s' = .next (s'.raiseError .operand)) ∨
      ∃ v b, exec i s = .next (s.complete v b) ∧ exec i s' = .next (s'.complete v b) := by
  simp only [isWordKernel, List.mem_cons, List.not_mem_nil, or_false] at hk
  rcases hk with rfl | rfl | rfl | rfl | rfl | rfl | rfl
  · exact .inr ⟨_, _, exec_popcnt he, ha ▸ exec_popcnt he'⟩
  · rcases Nat.lt_or_ge 64 s.opb.toNat with hgt | hle
    · exact .inl ⟨rankCommand_of_gt he hgt, rankCommand_of_gt he' (hb ▸ hgt)⟩
    · exact .inr ⟨_, _, exec_rank1 he hle, ha ▸ hb ▸ exec_rank1 he' (hb ▸ hle)⟩
  · rcases Nat.lt_or_ge 64 s.opb.toNat with hgt | hle
    · exact .inl ⟨rankCommand_of_gt he hgt, rankCommand_of_gt he' (hb ▸ hgt)⟩
    · exact .inr ⟨_, _, exec_rank0 he hle, ha ▸ hb ▸ exec_rank0 he' (hb ▸ hle)⟩
  · exact .inr ⟨_, _, exec_select1 he, ha ▸ hb ▸ exec_select1 he'⟩
  · exact .inr ⟨_, _, exec_select0 he, ha ▸ hb ▸ exec_select0 he'⟩
  · exact .inr ⟨_, _, exec_clz he, ha ▸ exec_clz he'⟩
  · exact .inr ⟨_, _, exec_ctz he, ha ▸ exec_ctz he'⟩

end WordCommands

/-- Settles O11: the machine's count is the number of set positions. -/
theorem popcntCountsSetBits : Obligations.PopcntCountsSetBits := by
  refine ⟨rfl, fun s he => ⟨exec_popcnt he, setBelow_le _ 64⟩, ?_, ?_, ?_⟩ <;>
  · rw [← count_eq]
    decide

/-- Settles O12: the mask of R101 keeps the positions below OPB. -/
theorem rankOneCountsSetBitsBelow : Obligations.RankOneCountsSetBitsBelow := by
  refine ⟨rfl, fun s he hb => ⟨exec_rank1 he hb, ?_, fun j hj _ => setBelow_mono _ hj⟩,
    fun s he hb => rankCommand_of_gt he hb, by decide⟩
  exact (rankOfWord_eq hb).symm.trans (count_eq _)

/-- Settles O13: the positions below OPB that are not set are the clear ones. -/
theorem rankZeroCountsClearBitsBelow : Obligations.RankZeroCountsClearBitsBelow := by
  refine ⟨rfl, fun s he hb => ⟨?_, setBelow_le _ _, (clearBelow_eq _ _).symm⟩,
    fun s he hb => rankCommand_of_gt he hb, by decide⟩
  rw [← clearBelow_eq]
  exact exec_rank0 he hb

/-- Settles O14: the search fails exactly at the ranks the word does not have. -/
theorem selectOneFindsTheRankedSetBit : Obligations.SelectOneFindsTheRankedSetBit := by
  refine ⟨rfl, fun s he hc => exec_select1_notFound he hc, fun s he hc => ?_⟩
  obtain ⟨p, hp, hsel, hfound⟩ := selectOfWord_of_lt_count hc
  exact ⟨p, hp, exec_select1_found he hsel, hfound⟩

/-- Settles O15: SELECT0 finds a set bit of the complement, whose set bits below a position are the word's clear
bits. -/
theorem selectZeroFindsTheRankedClearBit : Obligations.SelectZeroFindsTheRankedClearBit := by
  refine ⟨rfl, fun s he hc => exec_select0_notFound he hc, fun s he hc => ?_⟩
  rw [← setBelow_not_word (Nat.le_refl 64)] at hc
  obtain ⟨p, hp, hsel, hbit, hrank, huniq⟩ := selectOfWord_of_lt_count hc
  exact ⟨p, hp, exec_select0_found he hsel, (getLsbD_not_eq_true hp).mp hbit,
    (setBelow_not_word hp.le).symm.trans hrank,
    fun q hq hclear hqc => huniq q hq ((getLsbD_not_eq_true hq).mpr hclear) ((setBelow_not_word hq.le).trans hqc)⟩

/-- Settles O16: the word is zero, or CLZ locates its last set bit. -/
theorem clzCountsLeadingZeros : Obligations.ClzCountsLeadingZeros := by
  refine ⟨rfl, fun s he => ⟨leadingZeros s.opa, ?_⟩⟩
  by_cases hw : s.opa = 0#64
  · have hn := leadingZeros_of_eq_zero hw
    exact ⟨hn.le, exec_clz he, fun _ _ _ => hw ▸ BitVec.getLsbD_zero, fun _ => hn, absurd hw⟩
  · obtain ⟨hlt, habove, hbit, hrank⟩ := leadingZeros_of_ne_zero hw
    exact ⟨hlt.le, exec_clz he, habove, fun h => absurd h hw, fun _ => ⟨hlt, hbit, hrank⟩⟩

/-- Settles O17: the word is zero, or CTZ locates its first set bit. -/
theorem ctzCountsTrailingZeros : Obligations.CtzCountsTrailingZeros := by
  refine ⟨rfl, fun s he => ⟨trailingZeros s.opa, ?_⟩⟩
  by_cases hw : s.opa = 0#64
  · have hn := trailingZeros_of_eq_zero hw
    exact ⟨hn.le, exec_ctz he, fun _ _ => hw ▸ BitVec.getLsbD_zero, fun _ => hn, absurd hw⟩
  · obtain ⟨hlt, hbelow, hbit, hrank⟩ := trailingZeros_of_ne_zero hw
    exact ⟨hlt.le, exec_ctz he, hbelow, fun h => absurd h hw, fun _ => ⟨hlt, hbit, hrank⟩⟩

/-- R108, third law: RANK1 of the position SELECT1 found is the rank asked for. -/
theorem exec_rank1_of_exec_select1 {s : State} (he : s.err = .none) (hc : s.opb.toNat < setBelow s.opa.getLsbD 64) :
    ∃ t u, exec .select1 s = .next t ∧ exec .rank1 (s.setOpb t.res) = .next u ∧ u.res = s.opb ∧ u.err = .none := by
  obtain ⟨p, hp, hsel, -, hrank, -⟩ := selectOfWord_of_lt_count hc
  have hpos : (zext64 p).toNat = p := toNat_zext64 (by omega)
  have hle : (s.setOpb (zext64 p)).opb.toNat ≤ 64 := hpos.trans_le hp.le
  refine ⟨_, _, exec_select1_found he hsel, exec_rank1 (s := s.setOpb (zext64 p)) he hle, ?_, he⟩
  rw [State.complete_res, State.setOpb_opa, State.setOpb_opb, hpos, hrank]
  exact zext64_toNat s.opb

/-- Settles O18: the laws in R108's order. -/
theorem wordKernelLaws : Obligations.WordKernelLaws := by
  refine ⟨fun s he hb => ?_, fun s he hb => ?_, fun s he hc => exec_rank1_of_exec_select1 he hc,
    fun s he hc => ⟨_, exec_select1_notFound he hc, rfl, rfl⟩, fun s i j he hij hj => ?_, fun s he => ?_⟩
  · exact ⟨_, _, exec_rank1 he hb, exec_rank0 he hb, zext64_setBelow_add_clearBelow _ _⟩
  · have h64 : s.opb.toNat = 64 := by rw [hb]; rfl
    exact ⟨_, _, exec_rank1 he h64.le, exec_popcnt he, by rw [State.complete_res, State.complete_res, h64]⟩
  · refine ⟨_, _, exec_rank1 (s := s.setOpb i) he (hij.trans hj), exec_rank1 (s := s.setOpb j) he hj, ?_⟩
    rw [State.complete_res, State.complete_res, toNat_zext64_setBelow, toNat_zext64_setBelow]
    exact setBelow_mono _ hij
  · exact ⟨_, _, exec_select0 he, exec_select1 (s := s.setOpa (~~~s.opa)) he, rfl, rfl⟩

/-- Settles O19: from what the seven commands can do, and the operands that decide which of it they do. -/
theorem wordKernelTouchesOnlyResult : Obligations.WordKernelTouchesOnlyResult := by
  refine fun i hk => ⟨fun s t h => ?_, fun s s' t he he' ha hb h => ?_⟩
  · rcases exec_isWordKernel_cases hk h with ⟨-, rfl⟩ | ⟨-, ⟨-, rfl⟩ | ⟨v, b, rfl⟩⟩
    · exact ⟨rfl, fun _ => ⟨rfl, rfl⟩⟩
    · exact ⟨rfl, fun _ => ⟨rfl, rfl⟩⟩
    · exact ⟨rfl, absurd rfl⟩
  · rcases exec_isWordKernel_of_same_operands hk he he' ha hb with ⟨hs, hs'⟩ | ⟨v, b, hs, hs'⟩
    · cases hs.symm.trans h
      exact hs'
    · cases hs.symm.trans h
      rw [State.complete_err, if_pos he]
      exact hs'

end Sys2Proof.Machine

/-! ### The dense queries (41_dense_query.md R120 to R129) -/

namespace Sys2Proof.Machine

section WordsOfAVector
variable {s : State} {g : Nat → Word} {c q : Nat}

/-- R104, R124: the complemented words hold the clear positions. -/
theorem bitOf_not (g : Nat → Word) (p : Nat) : bitOf (fun j => ~~~g j) p = !bitOf g p := by
  simp [bitOf, Nat.mod_lt]

theorem setBelow_bitOf_not (g : Nat → Word) (n : Nat) :
    setBelow (bitOf fun j => ~~~g j) n = clearBelow (bitOf g) n := by
  rw [← setBelow_not]
  exact setBelow_congr fun p _ => bitOf_not g p

/-- R123: the word that holds the set position of rank `c` is the first whose cumulative count passes `c`, and the
position is the set bit of the remaining rank in it. -/
theorem exists_owningWord_of_rank (hbit : bitOf g q = true) (hrank : setBelow (bitOf g) q = c) :
    ∃ k, ∃ p < 64, q = 64 * k + p ∧ c < setBelow (bitOf g) (64 * (k + 1)) ∧
      (∀ j < k, setBelow (bitOf g) (64 * (j + 1)) ≤ c) ∧ (g k).getLsbD p = true ∧
      setBelow (g k).getLsbD p = c - setBelow (bitOf g) (64 * k) := by
  have hp : q % 64 < 64 := Nat.mod_lt _ (by decide)
  have hq : q = 64 * (q / 64) + q % 64 := (Nat.div_add_mod q 64).symm
  have hsplit := setBelow_bitOf_add g (q / 64) hp.le
  rw [← hq, hrank] at hsplit
  refine ⟨q / 64, q % 64, hp, hq, ?_, fun j hj => ?_, hbit, by omega⟩
  · rw [← hrank]
    exact setBelow_lt_of_set _ (by omega) hbit
  · rw [← hrank]
    exact setBelow_mono _ (by omega)

/-- R127: the words' counts add up to the set positions of the words. -/
theorem onesSpec_eq_setBelow (s : State) (k : Nat) : onesSpec s k = setBelow (dvBit s) (64 * k) :=
  (onesSpec_eq s k).trans (ones_eq s k)

/-- R127: the clear positions of the first `k` words. -/
theorem sub_onesSpec_eq_clearBelow (s : State) (k : Nat) :
    64 * k - onesSpec s k = clearBelow (dvBit s) (64 * k) := by
  rw [onesSpec_eq_setBelow, clearBelow_eq]

theorem onesSpec_dvlen_eq_total (s : State) : onesSpec s s.dvlen = total s := onesSpec_eq s s.dvlen

/-- R121's expression counts the set positions below `i`. -/
theorem onesSpec_add_setBelow_word (s : State) (i : Nat) :
    onesSpec s (i / 64) + setBelow (dvRead s (i / 64)).getLsbD (i % 64) = setBelow (dvBit s) i := by
  rw [onesSpec_eq, ← rankOfWord_eq (Nat.mod_lt i (by decide)).le]
  exact dvRankValue_eq s i

/-- R120: no vector of at most `n` words has more than `64 * n` set positions. -/
theorem onesSpec_dvlen_le {n : Nat} (h : s.dvlen ≤ n) : onesSpec s s.dvlen ≤ 64 * n := by
  rw [onesSpec_eq_setBelow]
  exact (setBelow_le _ _).trans (Nat.mul_le_mul_left 64 h)

/-- R120: a vector of all-ones words has every position set. -/
theorem onesSpec_dvlen_of_allOnes (h : ∀ k < s.dvlen, Memory.read s.dv k = 0xFFFF_FFFF_FFFF_FFFF#64) :
    onesSpec s s.dvlen = 64 * s.dvlen := by
  have hword : setBelow (0xFFFF_FFFF_FFFF_FFFF#64).getLsbD 64 = 64 := by rw [← count_eq]; decide
  unfold onesSpec
  rw [Nat.min_self, Finset.sum_const_nat fun j hj => ?_, Finset.card_range, Nat.mul_comm]
  rw [h j (Finset.mem_range.mp hj)]
  exact hword

/-- R124: the number of words searched, as the statements give it. -/
theorem select0Words_eq (s : State) :
    select0Words s = if s.params.select0Limit = .length then s.dvlen else s.params.maxWords := by
  unfold select0Words
  cases s.params.select0Limit <;> rfl

/-- R125: a set position is the least one whose rank passes its own. -/
theorem le_of_setBelow_succ_eq {f : Nat → Bool} {q r : Nat} (h : setBelow f (r + 1) = setBelow f q + 1) : q ≤ r := by
  by_contra hlt
  have := setBelow_mono f (show r + 1 ≤ q by omega)
  omega

end WordsOfAVector

section DenseCommands
variable {s t : State} {i : Instr}

theorem exec_dvSelect1_found {q : Nat} (he : s.err = .none) (h : dvSelectOne s s.opa.toNat = some q) :
    exec .dvSelect1 s = .next (s.complete (zext64 q) false) := by
  rw [exec_dvSelect1 he, h]
  rfl

theorem exec_dvSelect0_found {q : Nat} (he : s.err = .none) (h : dvSelectZero s s.opa.toNat = some q) :
    exec .dvSelect0 s = .next (s.complete (zext64 q) false) := by
  rw [exec_dvSelect0 he, h]
  rfl

/-- R123: a rank that the vector does not have. -/
theorem exec_dvSelect1_notFound (he : s.err = .none) (hc : onesSpec s s.dvlen ≤ s.opa.toNat) :
    exec .dvSelect1 s = .next (s.complete notFound true) := by
  rw [exec_dvSelect1 he, dvSelectOne_eq_none ((onesSpec_dvlen_eq_total s).symm.trans_le hc)]
  rfl

/-- R124: a rank that the clear positions searched do not have. -/
theorem exec_dvSelect0_notFound (he : s.err = .none) (hc : zeros s (select0Words s) ≤ s.opa.toNat) :
    exec .dvSelect0 s = .next (s.complete notFound true) := by
  rw [exec_dvSelect0 he, dvSelectZero_eq_none hc]
  rfl

/-- R123: below the total DV_SELECT1 answers the set position of rank OPA. -/
theorem exec_dvSelect1_of_lt (he : s.err = .none) (hc : s.opa.toNat < onesSpec s s.dvlen) :
    ∃ q < 64 * s.dvlen, exec .dvSelect1 s = .next (s.complete (zext64 q) false) ∧ dvBit s q = true ∧
      setBelow (dvBit s) q = s.opa.toNat := by
  obtain ⟨q, hsel, hlt, hfound⟩ := dvSelectOne_eq_some (hc.trans_eq (onesSpec_dvlen_eq_total s))
  exact ⟨q, hlt, exec_dvSelect1_found he hsel, hfound⟩

/-- R128: the commands that read the vector and answer in RES and NF. -/
abbrev isVectorRead (i : Instr) : Prop :=
  i ∈ [Instr.dvCount, .dvRank1, .dvRank0, .dvSelect1, .dvSelect0, .dvSelects, .dvTest, .dvReadw]

/-- R128: such a command writes RES and NF, or is refused under the lockout, which leaves both as they were. -/
theorem exec_isVectorRead (hr : isVectorRead i) (h : exec i s = .next t) : ∃ v b, t = s.complete v b := by
  rcases exec_cases h with ⟨-, rfl⟩ | ⟨-, ⟨rfl | rfl, -⟩ | ⟨rfl, -⟩ | ⟨-, -, ht⟩ | ⟨rfl, -⟩ | ⟨rfl, -⟩ | ⟨rfl, -⟩⟩
  · exact ⟨t.res, t.nf, rfl⟩
  iterate 3 exact absurd hr (by decide)
  · exact ht
  all_goals exact absurd hr (by decide)

end DenseCommands

/-- Settles O21: the set positions of the vector, counted word by word. -/
theorem dvCountSumsTheWords : Obligations.DvCountSumsTheWords := by
  refine ⟨rfl, fun s he => ⟨?_, onesSpec_eq_setBelow s s.dvlen, fun hlen => ?_, onesSpec_dvlen_le,
    onesSpec_dvlen_of_allOnes⟩⟩
  · rw [onesSpec_dvlen_eq_total]
    exact exec_dvCount he
  · rw [onesSpec_eq_setBelow, hlen]
    rfl

/-- Settles O22: R121's expression is the number of set positions below OPA, and none is set past the length. -/
theorem dvRankOneCountsSetPositionsBelow : Obligations.DvRankOneCountsSetPositionsBelow := by
  refine ⟨rfl, fun s he => ⟨?_, onesSpec_add_setBelow_word s _, fun hlen => ?_⟩⟩
  · rw [onesSpec_add_setBelow_word]
    exact exec_dvRank1 he
  · rw [setBelow_dvBit_beyond hlen, onesSpec_dvlen_eq_total]

/-- Settles O23: the positions below OPA that are not set are the clear ones. -/
theorem dvRankZeroCountsClearPositionsBelow : Obligations.DvRankZeroCountsClearPositionsBelow := by
  refine ⟨rfl, fun s he => ⟨?_, setBelow_le _ _, (clearBelow_eq _ _).symm, fun hlen => ?_⟩⟩
  · rw [← clearBelow_eq]
    exact exec_dvRank0 he
  · rw [setBelow_dvBit_beyond hlen, onesSpec_dvlen_eq_total]

/-- Settles O24: the answer is the set position of rank OPA, and the owning word is the word that holds it. -/
theorem dvSelectOneFindsTheRankedSetPosition : Obligations.DvSelectOneFindsTheRankedSetPosition := by
  refine ⟨rfl, fun s he hc => exec_dvSelect1_notFound he hc, fun s he hc => ?_⟩
  obtain ⟨q, hlt, hexec, hbit, hrank⟩ := exec_dvSelect1_of_lt he hc
  obtain ⟨k, p, hp, rfl, hnext, hprev, hwbit, hwrank⟩ := exists_owningWord_of_rank (g := dvRead s) hbit hrank
  have hk : k < s.dvlen := by omega
  rw [dvRead_of_lt hk] at hwbit hwrank
  simp only [onesSpec_eq_setBelow]
  exact ⟨k, hk, p, hp, hexec, hnext, hprev, hwbit, hwrank, hbit, hrank⟩

/-- Settles O25: the answer is the set position of rank OPA in the complemented words, which is the clear position of
that rank. -/
theorem dvSelectZeroFindsTheRankedClearPosition : Obligations.DvSelectZeroFindsTheRankedClearPosition := by
  refine ⟨rfl, fun s L he hL => ?_⟩
  obtain rfl : L = select0Words s := hL.trans (select0Words_eq s).symm
  simp only [sub_onesSpec_eq_clearBelow, ← zeros_eq]
  refine ⟨fun hc => exec_dvSelect0_notFound he hc, fun hc => ?_⟩
  obtain ⟨q, hsel, hlt, hclear, hrank⟩ := dvSelectZero_eq_some hc
  obtain ⟨k, p, hp, rfl, hnext, hprev, hwbit, hwrank⟩ := exists_owningWord_of_rank
    (g := fun j => ~~~dvRead s j) ((bitOf_not _ _).trans (by rw [← dvBit_eq, hclear]; rfl))
    ((setBelow_bitOf_not _ _).trans hrank)
  simp only [setBelow_bitOf_not, ← dvBit_eq, ← zeros_eq] at hnext hprev hwrank
  exact ⟨k, by omega, p, hp, exec_dvSelect0_found he hsel, hnext, hprev, (getLsbD_not_eq_true hp).mp hwbit,
    (setBelow_not_word hp.le).symm.trans hwrank, hclear, hrank⟩

/-- Settles O26: the position of rank OPA is the boundary at which the rank becomes OPA + 1. -/
theorem dvSelectsFindsTheBoundary : Obligations.DvSelectsFindsTheBoundary := by
  refine ⟨rfl, exec_dvSelects_eq, fun s he hc => exec_dvSelect1_notFound he hc, fun s he hc => ?_⟩
  obtain ⟨q, -, hexec, hbit, hrank⟩ := exec_dvSelect1_of_lt he hc
  rw [← hrank]
  exact ⟨q, hexec, by rw [setBelow_succ, hbit]; rfl, fun r => le_of_setBelow_succ_eq⟩

/-- R129, third law: DV_RANK1 of the position DV_SELECT1 found is the rank asked for. -/
theorem exec_dvRank1_of_exec_dvSelect1 {s : State} (hi : s.Inv) (he : s.err = .none)
    (hc : s.opa.toNat < onesSpec s s.dvlen) :
    ∃ t u, exec .dvSelect1 s = .next t ∧ exec .dvRank1 (s.setOpa t.res) = .next u ∧ u.res = s.opa := by
  obtain ⟨q, hlt, hexec, -, hrank⟩ := exec_dvSelect1_of_lt he hc
  obtain ⟨hwf, -, -, hlen⟩ := hi
  have hcap : 64 * s.dvlen ≤ s.params.capBits := Nat.mul_le_mul_left 64 hlen
  have hpos : (zext64 q).toNat = q := toNat_zext64 ((hlt.trans_le hcap).trans (capBits_lt_of_wellFormed hwf))
  refine ⟨_, _, hexec, exec_dvRank1 (s := s.setOpa (zext64 q)) he, ?_⟩
  calc zext64 (setBelow (dvBit s) (zext64 q).toNat)
      _ = zext64 s.opa.toNat := by rw [hpos, hrank]
      _ = s.opa := zext64_toNat s.opa

/-- Settles O28: the laws in R129's order. -/
theorem denseQueryLaws : Obligations.DenseQueryLaws := by
  refine ⟨fun s he => ?_, fun s he => ?_, fun s hi he hc => exec_dvRank1_of_exec_dvSelect1 hi he hc,
    fun s he hlen => ?_, fun s i j he hij => ?_⟩
  · exact ⟨_, _, exec_dvSelect1 he, exec_dvSelect1 he, rfl, rfl⟩
  · exact ⟨_, _, exec_dvRank1 he, exec_dvRank0 he, zext64_setBelow_add_clearBelow _ _⟩
  · refine ⟨_, _, exec_dvRank1 he, exec_dvCount he, ?_⟩
    rw [State.complete_res, State.complete_res, setBelow_dvBit_beyond hlen.ge]
  · refine ⟨_, _, exec_dvRank1 (s := s.setOpa i) he, exec_dvRank1 (s := s.setOpa j) he, ?_⟩
    rw [State.complete_res, State.complete_res, toNat_zext64_setBelow, toNat_zext64_setBelow]
    exact setBelow_mono (dvBit s) hij

/-- Settles O29: completion writes RES and NF alone. -/
theorem denseQueriesTouchOnlyResult : Obligations.DenseQueriesTouchOnlyResult := by
  intro i hr s t h
  obtain ⟨v, b, rfl⟩ := exec_isVectorRead hr h
  exact ⟨rfl, fun _ => rfl⟩

end Sys2Proof.Machine

/-! ### Dense storage (42_dense_storage.md R140 to R146) -/

namespace Sys2Proof.Machine

/-- A bit that is set already: setting it leaves the word as it was. -/
theorem setBit_of_getLsbD {w : Word} {b : Nat} (hb : b < 64) (h : w.getLsbD b = true) : setBit w b = w := by
  apply BitVec.eq_of_getLsbD_eq
  intro p _
  rw [getLsbD_setBit hb]
  by_cases hp : p = b
  · rw [hp, h, Bool.true_or]
  · rw [decide_eq_false hp, Bool.or_false]

section StorageCommands
variable {s : State}

/-- R142: below CAP_BITS DV_INSERT sets the bit. -/
theorem exec_dvInsert_of_lt (he : s.err = .none) (hcap : s.opa.toNat < s.params.capBits) :
    exec .dvInsert s = .next (insertBit s s.opa.toNat) :=
  (unlessLocked_open _ he).trans (if_neg hcap.not_ge)

/-- R142, R163: at and past CAP_BITS DV_INSERT raises CAPACITY. -/
theorem exec_dvInsert_of_ge (he : s.err = .none) (hcap : s.params.capBits ≤ s.opa.toNat) :
    exec .dvInsert s = .next (s.raiseError .capacity) :=
  (unlessLocked_open _ he).trans (if_pos hcap)

theorem exec_dvRemove (he : s.err = .none) : exec .dvRemove s = .next (removeBit s s.opa.toNat) :=
  unlessLocked_open _ he

theorem exec_dvTest (he : s.err = .none) :
    exec .dvTest s = .next (s.complete (zext64 (dvBit s s.opa.toNat).toNat) false) := unlessLocked_open _ he

theorem exec_dvReadw (he : s.err = .none) :
    exec .dvReadw s = .next (s.complete (dvRead s s.opa.toNat) false) := unlessLocked_open _ he

theorem exec_dvClear (he : s.err = .none) :
    exec .dvClear s = .next ((s.setVector [] 0).complete 0#64 false) := unlessLocked_open _ he

/-- R142: everything DV_INSERT writes but the words of DV, which `insertBit_read` gives. -/
theorem insertBit_eq (s : State) (i : Nat) : insertBit s i = { s with
    dv := (insertBit s i).dv, dvlen := max s.dvlen (wordIndex i + 1), nf := false,
    res := zext64 (1 - ((Memory.read s.dv (wordIndex i)).getLsbD (bitIndex i)).toNat) } := by
  rw [← insertBit_dvlen]
  rfl

/-- R142: the word that holds position `i` gets that bit set and keeps its others. -/
theorem insertBit_read_bit (s : State) (i b : Nat) :
    (Memory.read (insertBit s i).dv (wordIndex i)).getLsbD b =
      ((Memory.read s.dv (wordIndex i)).getLsbD b || decide (b = bitIndex i)) := by
  rw [insertBit_read, if_pos rfl, getLsbD_setBit (Nat.mod_lt _ (by decide))]

/-- R142: inserting a set bit again leaves every word as it was. -/
theorem insertBit_read_of_set {i : Nat} (h : (Memory.read s.dv (wordIndex i)).getLsbD (bitIndex i) = true) (k : Nat) :
    Memory.read (insertBit s i).dv k = Memory.read s.dv k := by
  rw [insertBit_read]
  split
  next hk => rw [hk, setBit_of_getLsbD (Nat.mod_lt _ (by decide)) h]
  next => rfl

/-- R143: everything DV_REMOVE writes below the length but the words of DV, which `removeBit_read` gives. -/
theorem removeBit_of_lt {i : Nat} (h : wordIndex i < s.dvlen) : removeBit s i = { s with
    dv := (removeBit s i).dv, nf := false,
    res := zext64 ((Memory.read s.dv (wordIndex i)).getLsbD (bitIndex i)).toNat } := by
  simp only [removeBit, removeAt, if_pos h]
  rfl

/-- R143: at and past the length DV_REMOVE writes RES = 0 and NF = 0 only. -/
theorem removeBit_of_ge {i : Nat} (h : s.dvlen ≤ wordIndex i) : removeBit s i = s.complete 0#64 false :=
  if_neg h.not_gt

/-- R143: below the length the word that holds position `i` gets that bit cleared and keeps its others. -/
theorem removeBit_read_bit {i : Nat} (hwf : Memory.wf s.dv = true) (h : wordIndex i < s.dvlen) (b : Nat) :
    (Memory.read (removeBit s i).dv (wordIndex i)).getLsbD b =
      ((Memory.read s.dv (wordIndex i)).getLsbD b && !decide (b = bitIndex i)) := by
  rw [removeBit_read hwf, if_pos ⟨rfl, h⟩, getLsbD_clearBit]

/-- R144: a position below the length reads the stored bit. -/
theorem dvBit_of_lt {i : Nat} (h : i < 64 * s.dvlen) :
    dvBit s i = (Memory.read s.dv (wordIndex i)).getLsbD (bitIndex i) := by
  unfold dvBit
  rw [dvRead_of_lt (Nat.div_lt_of_lt_mul h)]

end StorageCommands

/-- Settles O32: below CAP_BITS the storage is that of `insertBit`, whose words are known at every index. -/
theorem dvInsertSetsTheBit : Obligations.DvInsertSetsTheBit := by
  refine ⟨rfl, fun s he hcap => ?_, fun s he hcap => exec_dvInsert_of_ge he hcap⟩
  refine ⟨(insertBit s s.opa.toNat).dv, ?_, fun b _ => insertBit_read_bit s _ b, fun k hk => ?_,
    insertBit_read_of_set⟩
  · rw [exec_dvInsert_of_lt he hcap]
    exact congrArg _ (insertBit_eq s _)
  · rw [insertBit_read, if_neg hk]

/-- Settles O33: below the length the storage is that of `removeBit`, whose words are known at every index. -/
theorem dvRemoveClearsTheBit : Obligations.DvRemoveClearsTheBit := by
  refine ⟨rfl, fun s he hwf hlen => ?_, fun s he hlen => ?_⟩
  · refine ⟨(removeBit s s.opa.toNat).dv, ?_, fun b _ => removeBit_read_bit hwf hlen b, fun k hk => ?_⟩
    · rw [exec_dvRemove he]
      exact congrArg _ (removeBit_of_lt hlen)
    · rw [removeBit_read hwf, if_neg fun h => hk h.1]
  · rw [exec_dvRemove he, removeBit_of_ge hlen]
    rfl

/-- Settles O34: DV_TEST answers the vector's bit, which is the stored one below the length and 0 beyond it. -/
theorem dvTestReadsTheBit : Obligations.DvTestReadsTheBit := by
  refine ⟨rfl, fun s he hlen => ?_, fun s he hlen => ?_⟩
  · rw [exec_dvTest he, dvBit_of_lt hlen]
    rfl
  · rw [exec_dvTest he, dvBit_beyond hlen]
    rfl

/-- Settles O35: DV_READW answers DVRead(OPA), which is the stored word below the length and 0 beyond it. -/
theorem dvReadwReadsTheWord : Obligations.DvReadwReadsTheWord := by
  refine ⟨rfl, fun s he hlen => ?_, fun s he hlen => ?_⟩
  · rw [exec_dvReadw he, dvRead_of_lt hlen]
    rfl
  · rw [exec_dvReadw he, dvRead_of_ge hlen]
    rfl

/-- Settles O36: the empty storage reads 0 at every index and is that of reset; a command that leaves the length as it
was lowers nothing, and of the storage commands only DV_CLEAR lowers it. -/
theorem dvClearEmptiesTheVector : Obligations.DvClearEmptiesTheVector := by
  refine ⟨rfl, fun s he => ⟨[], exec_dvClear he, Memory.read_nil, rfl⟩, fun i s t h hlt => ?_⟩
  rcases exec_vector h with ⟨-, hlen⟩ | ⟨-, hclear⟩
  · exact absurd hlen hlt.ne
  · exact hclear hlt

end Sys2Proof.Machine

/-! ### Exceptions: which CMD writes raise which error, what an error changes, and the lockout (60_exceptions.md) -/

namespace Sys2Proof.Machine

section Exceptions
variable {s t : State} {v : Word} {i : Instr}

/-- R20: a CMD write is what the step performs on it. -/
theorem step_cmd_write (s : State) (v : Word) :
    step (s.withInput (.write (s.params.base + 0x00) (bytesOfWord v))) = commandWrite s v := perform_write s .cmd v

/-- R161: a value that is no command raises ILLEGAL. -/
theorem commandWrite_of_not_listed (he : s.err = .none) (hv : ¬ listedOpcode v.toNat) :
    commandWrite s v = .next (s.raiseError .illegal) := by
  obtain ⟨t, h⟩ := commandWrite_answers s v
  rcases commandWrite_cases h with ⟨hne, -⟩ | ⟨-, -, rfl⟩ | ⟨-, i, hd, -⟩
  · exact absurd he hne
  · exact h
  · exact absurd (exists_decodeWord_eq_ok.mp ⟨i, hd⟩) hv

/-- R162: with no fault recorded a CMD write raises ILLEGAL, or runs the command whose word it is. -/
theorem commandWrite_open_cases (he : s.err = .none) (h : commandWrite s v = .next t) :
    (¬ listedOpcode v.toNat ∧ t = s.raiseError .illegal) ∨ ∃ i, v = encode i ∧ exec i s = .next t := by
  by_cases hv : listedOpcode v.toNat
  · obtain ⟨i, hd⟩ := exists_decodeWord_eq_ok.mpr hv
    exact .inr ⟨i, decodeWord_eq_ok.mp hd, (commandWrite_of_decoded hd).symm.trans h⟩
  · cases (commandWrite_of_not_listed he hv).symm.trans h
    exact .inl ⟨hv, rfl⟩

/-- R160: with no fault recorded a command raises OPERAND, raises CAPACITY, or leaves ERR = NONE, each under its own
condition on the operands. -/
theorem exec_err_cases (he : s.err = .none) (h : exec i s = .next t) :
    ((i = .rank1 ∨ i = .rank0) ∧ 64 < s.opb.toNat ∧ t = s.raiseError .operand) ∨
    (i = .dvInsert ∧ s.params.capBits ≤ s.opa.toNat ∧ t = s.raiseError .capacity) ∨
    ((i = .rank1 ∨ i = .rank0 → s.opb.toNat ≤ 64) ∧ (i = .dvInsert → s.opa.toNat < s.params.capBits) ∧
      t.err = .none) := by
  rcases exec_cases h with ⟨hne, -⟩ | ⟨-, hopen⟩
  · exact absurd he hne
  rcases hopen with hop | hcap | ⟨⟨hi, -⟩, hb, v, b, rfl⟩ | ⟨rfl, ha, rfl⟩ | ⟨rfl, rfl⟩ | ⟨rfl, rfl⟩
  · exact .inl hop
  · exact .inr (.inl hcap)
  · exact .inr (.inr ⟨hb, fun h => absurd h hi, he⟩)
  · exact .inr (.inr ⟨by simp, fun _ => ha, he⟩)
  · exact .inr (.inr ⟨by simp, by simp, (removeBit_err s _).trans he⟩)
  · exact .inr (.inr ⟨by simp, by simp, he⟩)

/-- R160: the one cause of each code that a command can leave. -/
theorem exec_err_iff (he : s.err = .none) (h : exec i s = .next t) :
    t.err ≠ .illegal ∧
    (t.err = .operand ↔ (i = .rank1 ∨ i = .rank0) ∧ 64 < s.opb.toNat) ∧
    (t.err = .capacity ↔ i = .dvInsert ∧ s.params.capBits ≤ s.opa.toNat) := by
  rcases exec_err_cases he h with ⟨hi, hb, rfl⟩ | ⟨rfl, ha, rfl⟩ | ⟨hb, ha, ht⟩
  · have hne : i ≠ .dvInsert := by rcases hi with rfl | rfl <;> decide
    simp [hi, hb, hne]
  · simp [ha]
  · rw [ht]
    refine ⟨by simp, iff_of_false (by simp) fun ⟨hi, hgt⟩ => ?_, iff_of_false (by simp) fun ⟨hi, hge⟩ => ?_⟩
    · exact absurd (hb hi) hgt.not_ge
    · exact absurd (ha hi) hge.not_gt

/-- R72: no two commands have one word. -/
theorem encode_inj {j : Instr} : encode i = encode j ↔ i = j := by
  refine ⟨fun h => ?_, congrArg encode⟩
  have hd : decodeWord (encode i) = .ok j := decodeWord_eq_ok.mpr h
  cases (decodeWord_encode i).symm.trans hd
  rfl

theorem listedOpcode_encode (i : Instr) : listedOpcode (encode i).toNat :=
  exists_decodeWord_eq_ok.mp ⟨i, decodeWord_encode i⟩

/-- R163: whatever error a CMD write raises, its code is all that changes. -/
theorem commandWrite_fault (he : s.err = .none) (h : commandWrite s v = .next t) (ht : t.err ≠ .none) :
    t = s.raiseError t.err := by
  rcases commandWrite_open_cases he h with ⟨-, rfl⟩ | ⟨i, -, hx⟩
  · rfl
  rcases exec_err_cases he hx with ⟨-, -, rfl⟩ | ⟨-, -, rfl⟩ | ⟨-, -, hnone⟩
  · rfl
  · rfl
  · exact absurd hnone ht

/-- R164: while a fault is recorded a CMD write changes nothing. -/
theorem commandWrite_of_locked (he : s.err ≠ .none) (v : Word) : commandWrite s v = .next s :=
  unlessLocked_locked _ he

/-- R107, R128, R184: no command writes an operand register, takes an input or answers a read. -/
theorem exec_port_frame (h : exec i s = .next t) :
    t.inputs = s.inputs ∧ t.replies = s.replies ∧ t.opa = s.opa ∧ t.opb = s.opb := by
  rcases exec_cases h with ⟨-, rfl⟩ | ⟨-, hopen⟩
  · exact ⟨rfl, rfl, rfl, rfl⟩
  rcases hopen with ⟨-, -, rfl⟩ | ⟨-, -, rfl⟩ | ⟨-, -, v, b, rfl⟩ | ⟨-, -, rfl⟩ | ⟨-, rfl⟩ | ⟨-, rfl⟩
  · exact ⟨rfl, rfl, rfl, rfl⟩
  · exact ⟨rfl, rfl, rfl, rfl⟩
  · exact ⟨rfl, rfl, rfl, rfl⟩
  · exact ⟨rfl, rfl, rfl, rfl⟩
  · exact ⟨removeBit_inputs s _, removeBit_replies s _, removeBit_opa s _, removeBit_opb s _⟩
  · exact ⟨rfl, rfl, rfl, rfl⟩

end Exceptions

/-- Settles O5: the step performs the CMD write, whose decode fails. -/
theorem illegalWordRaisesIllegal : Obligations.IllegalWordRaisesIllegal :=
  fun s v he hv => (step_cmd_write s v).trans (commandWrite_of_not_listed he hv)

/-- Settles O6: a value that is no command is none of the three words that have a check of their own; for one that is,
the three words are those of RANK1, RANK0 and DV_INSERT. -/
theorem errorCausesExactly : Obligations.ErrorCausesExactly := by
  intro s t v he h
  rw [step_cmd_write] at h
  rcases commandWrite_open_cases he h with ⟨hv, rfl⟩ | ⟨i, rfl, hx⟩
  · refine ⟨iff_of_true rfl hv, iff_of_false (by simp) ?_, iff_of_false (by simp) ?_⟩
    · rintro ⟨rfl | rfl, -⟩ <;> exact hv (by decide)
    · rintro ⟨rfl, -⟩
      exact hv (by decide)
  · obtain ⟨hillegal, hoperand, hcapacity⟩ := exec_err_iff he hx
    rw [← encode_inj, ← encode_inj] at hoperand
    rw [← encode_inj] at hcapacity
    exact ⟨iff_of_false hillegal (not_not_intro (listedOpcode_encode i)), hoperand, hcapacity⟩

/-- Settles O7: the step is a CMD write, and an error writes its code alone. -/
theorem faultIsPrecise : Obligations.FaultIsPrecise :=
  fun s _ v he h ht => commandWrite_fault he ((step_cmd_write s v).symm.trans h) ht

/-- Settles O8: the lockout guards CMD writes and commands only, and of the inputs reset alone overwrites a recorded
fault. -/
theorem lockoutUntilReset : Obligations.LockoutUntilReset := by
  refine fun s he => ⟨fun v => (step_cmd_write s v).trans (commandWrite_of_locked he v), fun i => exec_of_locked he,
    fun v => ⟨perform_write s .opa v, perform_write s .opb v⟩, perform_read s, fun e t h => ⟨?_, fun hne => ?_⟩⟩
  · rintro rfl
    cases h
    rfl
  · rcases perform_err h with herr | hnone | hreset
    · exact herr
    · exact absurd hnone he
    · exact absurd hreset hne

/-- Settles O10: a command answers, and whatever it answers keeps the operands and the model's own fields. -/
theorem everyCommandAnswers : Obligations.EveryCommandAnswers := by
  intro i s
  obtain ⟨t, h⟩ := exec_answers i s
  obtain ⟨hinputs, hreplies, hopa, hopb⟩ := exec_port_frame h
  exact ⟨t, h, hinputs, hreplies, exec_params h, hopa, hopb⟩

end Sys2Proof.Machine

/-! ### The binary search of DV_SELECTS (41_dense_query.md R125) and the laws of 42_dense_storage.md R147 -/

namespace Sys2Proof.Machine

section BinarySearch
variable {s : State} {c : Nat}

/-- R125: the boundary that the binary search over the rank function ends on. -/
def searchBoundary (s : State) (c : Nat) : Nat := leastPassing (dvRankValue s) c (64 * s.dvlen) 0 (64 * s.dvlen)

theorem binarySearchSelect_eq (s : State) (c : Nat) :
    binarySearchSelect s c = if dvBit s (searchBoundary s c) then some (searchBoundary s c) else none := rfl

/-- R125: no rank before the boundary passes `c`, and the rank at a boundary within the vector does. -/
theorem searchBoundary_spec (s : State) (c : Nat) :
    (∀ q < searchBoundary s c, setBelow (dvBit s) (q + 1) ≤ c) ∧
    (searchBoundary s c < 64 * s.dvlen → c < setBelow (dvBit s) (searchBoundary s c + 1)) := by
  have hrank : dvRankValue s = setBelow (dvBit s) := funext (dvRankValue_eq s)
  obtain ⟨-, -, hspec⟩ := leastPassing_spec (fun _ _ => setBelow_mono (dvBit s)) c (64 * s.dvlen) 0
    (64 * s.dvlen) (Nat.le_refl _) (fun q hq => absurd hq (Nat.not_lt_zero q)) (Nat.zero_le _)
  rwa [searchBoundary, hrank]

/-- R125: the boundary of a rank the vector has is the set position of that rank. -/
theorem searchBoundary_of_set {q : Nat} (hlt : q < 64 * s.dvlen) (hset : dvBit s q = true) :
    searchBoundary s (setBelow (dvBit s) q) = q := by
  obtain ⟨hbefore, hpass⟩ := searchBoundary_spec s (setBelow (dvBit s) q)
  have hnext : setBelow (dvBit s) q < setBelow (dvBit s) (q + 1) := setBelow_lt_of_set _ (Nat.lt_succ_self q) hset
  have hle : searchBoundary s (setBelow (dvBit s) q) ≤ q := Nat.le_of_not_lt fun h => (hbefore q h).not_gt hnext
  refine Nat.le_antisymm hle (Nat.le_of_not_lt fun h => ?_)
  exact (hpass (h.trans hlt)).not_ge (setBelow_mono (dvBit s) h)

/-- R125: for a rank the vector does not have the search runs to the end. -/
theorem le_searchBoundary_of_total_le (hc : total s ≤ c) : 64 * s.dvlen ≤ searchBoundary s c := by
  refine Nat.le_of_not_lt fun h => ?_
  obtain ⟨-, hpass⟩ := searchBoundary_spec s c
  exact (hpass h).not_ge ((setBelow_dvBit_le_total s _).trans hc)

end BinarySearch

/-- Settles O27: both strategies find the set position of rank `c`; at and past the total both find none, the direct
bit test failing at the vector's end. -/
theorem binarySearchAgreesWithLinearSelect : Obligations.BinarySearchAgreesWithLinearSelect := by
  intro s c
  rw [binarySearchSelect_eq]
  rcases Nat.lt_or_ge c (total s) with hc | hc
  · obtain ⟨q, hsel, hlt, hset, rfl⟩ := dvSelectOne_eq_some hc
    rw [hsel, searchBoundary_of_set hlt hset, if_pos hset]
  · rw [dvSelectOne_eq_none hc, dvBit_beyond (le_searchBoundary_of_total_le hc)]
    rfl

section StorageLaws
variable {s : State} {i : Nat}

/-- A bit that is clear already: clearing it leaves the word as it was. -/
theorem clearBit_of_getLsbD {w : Word} {b : Nat} (h : w.getLsbD b = false) : clearBit w b = w := by
  apply BitVec.eq_of_getLsbD_eq
  intro p _
  rw [getLsbD_clearBit]
  by_cases hp : p = b
  · rw [hp, h, Bool.false_and]
  · rw [decide_eq_false hp, Bool.not_false, Bool.and_true]

/-- R32: in a state that meets the invariant the vector's bits are the stored ones at every position. -/
theorem dvBit_of_inv (hi : s.Inv) (i : Nat) : dvBit s i = (Memory.read s.dv (wordIndex i)).getLsbD (bitIndex i) := by
  obtain ⟨-, -, hbelow, -⟩ := hi
  rw [dvBit, dvRead_of_below hbelow]

/-- R142: DV_INSERT answers 1 less the old bit. -/
theorem insertBit_res_of_inv (hi : s.Inv) (i : Nat) : (insertBit s i).res = zext64 (1 - (dvBit s i).toNat) := by
  rw [insertBit_res, dvBit_of_inv hi]

theorem dvBit_insertBit_same (hi : s.Inv) (i : Nat) : dvBit (insertBit s i) i = true := by
  obtain ⟨-, -, hbelow, -⟩ := hi
  rw [insertBit_dvBit hbelow, decide_eq_true rfl, Bool.or_true]

theorem dvBit_removeBit_same (hi : s.Inv) (i : Nat) : dvBit (removeBit s i) i = false := by
  obtain ⟨-, hwf, -, -⟩ := hi
  rw [removeBit_dvBit hwf, decide_eq_true rfl, Bool.not_true, Bool.and_false]

/-- R147, second law: inserting a set bit again leaves DV as it was, as data. -/
theorem insertBit_dv_of_set (hi : s.Inv) (hcap : i < s.params.capBits) (h : dvBit s i = true) :
    (insertBit s i).dv = s.dv := by
  obtain ⟨-, hwf', -, -⟩ := insertBit_inv hi hcap
  rw [dvBit_of_inv hi] at h
  obtain ⟨-, hwf, -, -⟩ := hi
  exact Memory.ext_of_wf hwf' hwf (insertBit_read_of_set h)

/-- R147, third law: removing a clear bit leaves DV as it was, as data. -/
theorem removeBit_dv_of_clear (hi : s.Inv) (h : dvBit s i = false) : (removeBit s i).dv = s.dv := by
  obtain ⟨-, hwf', -, -⟩ := removeBit_inv hi i
  rw [dvBit_of_inv hi] at h
  obtain ⟨-, hwf, -, -⟩ := hi
  refine Memory.ext_of_wf hwf' hwf fun k => ?_
  rw [removeBit_read hwf]
  split
  next hk => rw [hk.1, clearBit_of_getLsbD h]
  next => rfl

/-- The counts of two sets of positions that differ at `i` at most. -/
theorem setBelow_differ_at {f g : Nat → Bool} {n : Nat} (hin : i < n) (h : ∀ p, p ≠ i → g p = f p) :
    setBelow g n + (f i).toNat = setBelow f n + (g i).toNat := by
  induction n with
  | zero => exact absurd hin (Nat.not_lt_zero i)
  | succ n ih =>
    rw [setBelow_succ, setBelow_succ]
    rcases Nat.lt_succ_iff_lt_or_eq.mp hin with hlt | rfl
    · have := ih hlt
      rw [h n (by omega)]
      omega
    · rw [setBelow_congr fun p hp => h p (by omega)]
      omega

/-- The totals of two vectors that differ at position `i` at most. -/
theorem total_differ_at {t : State} (h : ∀ p, p ≠ i → dvBit t p = dvBit s p) :
    total t + (dvBit s i).toNat = total s + (dvBit t i).toNat := by
  have hdiff := setBelow_differ_at (n := max (i + 1) (max (64 * s.dvlen) (64 * t.dvlen))) (by omega) h
  rwa [setBelow_dvBit_beyond (s := t) (by omega), setBelow_dvBit_beyond (s := s) (by omega)] at hdiff

/-- R147, fourth law: the total rises by 1 less the old bit. -/
theorem total_insertBit (hi : s.Inv) (i : Nat) : total (insertBit s i) = total s + (1 - (dvBit s i).toNat) := by
  have hdiff : total (insertBit s i) + (dvBit s i).toNat = total s + (dvBit (insertBit s i) i).toNat := by
    obtain ⟨-, -, hbelow, -⟩ := hi
    exact total_differ_at fun p hp => by rw [insertBit_dvBit hbelow, decide_eq_false hp, Bool.or_false]
  rw [dvBit_insertBit_same hi, Bool.toNat_true] at hdiff
  have := Bool.toNat_le (dvBit s i)
  omega

/-- R147, fourth law: the total falls by the old bit. -/
theorem total_removeBit (hi : s.Inv) (i : Nat) : total (removeBit s i) + (dvBit s i).toNat = total s := by
  have hdiff : total (removeBit s i) + (dvBit s i).toNat = total s + (dvBit (removeBit s i) i).toNat := by
    obtain ⟨-, hwf, -, -⟩ := hi
    exact total_differ_at fun p hp => by rw [removeBit_dvBit hwf, decide_eq_false hp, Bool.not_false, Bool.and_true]
  rwa [dvBit_removeBit_same hi] at hdiff

/-- R120: DV_COUNT answers the total, as a number. -/
theorem exec_dvCount_total (hi : s.Inv) (he : s.err = .none) :
    ∃ t, exec .dvCount s = .next t ∧ t.res.toNat = total s :=
  ⟨_, exec_dvCount he, (dvCount_exact hi he (exec_dvCount he)).1.trans (onesSpec_dvlen_eq_total s)⟩

/-- R142, as `insertAll` runs it: the host writes the position to OPA, and the bit is set. -/
theorem insertAll_cons (hi : s.Inv) (he : s.err = .none) (hcap : i < s.params.capBits) (X : List Nat) :
    insertAll (i :: X) s = insertAll X (insertBit (s.setOpa (zext64 i)) i) := by
  have hopa : (zext64 i).toNat = i := toNat_zext64 (hcap.trans (capBits_lt_of_wellFormed hi.1))
  have hexec := exec_dvInsert_of_lt (s := s.setOpa (zext64 i)) he (hopa.trans_lt hcap)
  rw [State.setOpa_opa, hopa] at hexec
  rw [insertAll, hexec]

/-- 10_state.md R30: the least number of words that covers every position of a list. -/
abbrev wordsCovering (X : List Nat) : Nat := X.foldr (fun i n => max (i / 64 + 1) n) 0

/-- R147, fifth law, from any vector: the positions of the list join the set, and the length grows to cover them. -/
theorem insertAll_spec (X : List Nat) :
    ∀ s : State, s.Inv → s.err = .none → (∀ i ∈ X, i < s.params.capBits) → ∃ t,
      insertAll X s = .next t ∧ t.err = .none ∧ (∀ p, dvBit t p = true ↔ dvBit s p = true ∨ p ∈ X) ∧
      t.dvlen = max s.dvlen (wordsCovering X) := by
  induction X with
  | nil => exact fun s _ he _ => ⟨s, rfl, he, fun p => by simp, (Nat.max_zero s.dvlen).symm⟩
  | cons i X ih =>
    intro s hi he hX
    obtain ⟨hcap, hrest⟩ := List.forall_mem_cons.mp hX
    have hi' : (s.setOpa (zext64 i)).Inv := inv_of_same_vector rfl rfl rfl hi
    obtain ⟨t, hrun, hterr, hbits, hlen⟩ :=
      ih (insertBit (s.setOpa (zext64 i)) i) (insertBit_inv hi' hcap) he hrest
    refine ⟨t, (insertAll_cons hi he hcap X).trans hrun, hterr, fun p => ?_, ?_⟩
    · obtain ⟨-, -, hbelow, -⟩ := hi'
      rw [hbits, insertBit_dvBit hbelow, Bool.or_eq_true, decide_eq_true_eq, List.mem_cons, or_assoc]
      rfl
    · rw [hlen, insertBit_dvlen]
      exact Nat.max_assoc _ _ _

/-- The number of set positions of a vector whose set positions are those of a list. -/
theorem setBelow_dvBit_of_mem_iff {X : List Nat} (h : ∀ p, dvBit s p = true ↔ p ∈ X) :
    setBelow (dvBit s) (64 * s.dvlen) = X.toFinset.card := by
  unfold setBelow
  congr 1
  ext p
  rw [Finset.mem_filter, Finset.mem_range, List.mem_toFinset, ← h]
  refine and_iff_right_of_imp fun hp => Nat.lt_of_not_le fun hge => ?_
  rw [dvBit_beyond hge] at hp
  cases hp

end StorageLaws

/-- Settles O37: after the first command the bit is set (or clear), and repeating the command keeps the canonical
storage. -/
theorem insertRemoveTestLaws : Obligations.InsertRemoveTestLaws := by
  refine fun s hi he => ⟨fun hcap => ?_, ?_⟩
  · have hset := dvBit_insertBit_same hi s.opa.toNat
    have hi' := insertBit_inv hi hcap
    refine ⟨_, _, _, exec_dvInsert_of_lt he hcap, exec_dvTest he, ?_, exec_dvInsert_of_lt he hcap, ?_,
      insertBit_dv_of_set hi' hcap hset, ?_⟩
    · rw [State.complete_res, insertBit_opa, hset]
      rfl
    · rw [insertBit_opa, insertBit_res_of_inv hi', hset]
      rfl
    · simp
  · have hclear := dvBit_removeBit_same hi s.opa.toNat
    have hi' := removeBit_inv hi s.opa.toNat
    have he' : (removeBit s s.opa.toNat).err = .none := (removeBit_err s _).trans he
    refine ⟨_, _, _, exec_dvRemove he, exec_dvTest he', ?_, exec_dvRemove he', ?_, ?_, removeBit_dvlen _ _⟩
    · rw [State.complete_res, removeBit_opa, hclear]
      rfl
    · rw [removeBit_res, removeBit_opa, hclear]
      rfl
    · rw [removeBit_opa]
      exact removeBit_dv_of_clear hi' hclear

/-- Settles O38: the total moves by the bit that DV_INSERT or DV_REMOVE changed, which is what it answers. -/
theorem insertRemoveMoveTheCount : Obligations.InsertRemoveMoveTheCount := by
  intro s hi he
  obtain ⟨a, ha, hares⟩ := exec_dvCount_total hi he
  have hbit := Bool.toNat_le (dvBit s s.opa.toNat)
  refine ⟨fun hcap => ?_, ?_⟩
  · obtain ⟨b, hb, hbres⟩ := exec_dvCount_total (insertBit_inv hi hcap) he
    refine ⟨a, _, b, ha, exec_dvInsert_of_lt he hcap, hb, ?_⟩
    rw [hbres, hares, insertBit_res_of_inv hi, toNat_zext64 (by omega), total_insertBit hi]
  · obtain ⟨b, hb, hbres⟩ := exec_dvCount_total (removeBit_inv hi s.opa.toNat) ((removeBit_err s _).trans he)
    refine ⟨a, _, b, ha, exec_dvRemove he, hb, ?_⟩
    rw [hbres, hares, removeBit_res, toNat_zext64 (by omega), total_removeBit hi]

/-- Settles O39: the empty vector meets the invariant and has no set position, so the list's positions are all. -/
theorem insertAllBuildsTheSet : Obligations.InsertAllBuildsTheSet := by
  intro s X hwf he hdv hlen hX
  obtain ⟨t, hrun, hterr, hbits, htlen⟩ := insertAll_spec X s (inv_of_empty_vector hwf hdv hlen) he hX
  have hmem : ∀ p, dvBit t p = true ↔ p ∈ X := fun p => by
    rw [hbits, dvBit_beyond (by omega)]
    simp
  exact ⟨t, hrun, hterr, hmem, setBelow_dvBit_of_mem_iff hmem, by rw [htlen, hlen, Nat.zero_max]⟩

end Sys2Proof.Machine

/-! ### The informative broadword algorithm (40_word_kernel.md section 4) -/

namespace Sys2Proof.Machine

section Lanes
variable {w x y c : Word}

theorem toNat_busByte (x : Word) (j : Nat) : (busByte x j).toNat = x.toNat / 2 ^ (8 * j) % 256 := by
  simp [busByte, BitVec.extractLsb'_toNat, Nat.shiftRight_eq_div_pow]

/-- The set bits of the first `j` lanes and of the first `b` bits of the next. -/
theorem setBelow_lane_add (w : Word) (j : Nat) {b : Nat} (hb : b ≤ 8) :
    setBelow w.getLsbD (8 * j + b) = setBelow w.getLsbD (8 * j) + setBelow (busByte w j).getLsbD b := by
  rw [setBelow_add]
  congr 1
  exact setBelow_congr fun i hi => by rw [getLsbD_busByte, decide_eq_true (by omega), Bool.true_and]

/-- The counts of the lanes add up to the set bits below a lane's end. -/
theorem sumTo_lane_counts (w : Word) (n : Nat) :
    sumTo (fun i => setBelow (busByte w i).getLsbD 8) n = setBelow w.getLsbD (8 * n) := by
  induction n with
  | zero => rfl
  | succ n ih => rw [sumTo, ih, Nat.mul_succ, setBelow_lane_add w n (Nat.le_refl 8)]

/-- Section 4: when the lanes of `x` count `f` over consecutive runs of `d` positions, a multiplication by `L8` leaves
the ranks at the ends of the runs. -/
theorem toNat_busByte_mul_L8 {f : Nat → Bool} {d : Nat} (hd : d ≤ 8)
    (h : ∀ n ≤ 8, sumTo (fun i => (busByte x i).toNat) n = setBelow f (d * n)) :
    ∀ j < 8, (busByte (x * bwL8) j).toNat = setBelow f (d * (j + 1)) := by
  have hall : sumTo (fun i => (busByte x i).toNat) 8 < 256 :=
    calc sumTo (fun i => (busByte x i).toNat) 8 = setBelow f (d * 8) := h 8 (Nat.le_refl 8)
      _ ≤ d * 8 := setBelow_le f _
      _ < 256 := by omega
  intro j hj
  rw [lanes_mul_L8 hall j hj, h (j + 1) hj]

/-- Section 4: lane `j` of `sums` counts the set bits of lanes 0 to `j`. -/
theorem toNat_busByte_cumulativeCounts (w : Word) :
    ∀ j < 8, (busByte (bwByteCounts w * bwL8) j).toNat = setBelow w.getLsbD (8 * (j + 1)) := by
  refine toNat_busByte_mul_L8 (Nat.le_refl 8) fun n hn => ?_
  rw [← sumTo_lane_counts]
  exact sumTo_congr fun i hi => busByte_bwByteCounts w i (by omega)

/-- Section 4: the top lane of `sums` is the count. -/
theorem toNat_bwCount (w : Word) : (bwCount w).toNat = setBelow w.getLsbD 64 := by
  rw [← toNat_busByte_cumulativeCounts w 7 (by decide), bwCount, toNat_busByte, BitVec.toNat_ushiftRight,
    Nat.shiftRight_eq_div_pow]
  have := (bwByteCounts w * bwL8).isLt
  omega

/-- Section 4: a multiplication by `L8` copies a byte to every lane. -/
theorem toNat_busByte_broadcast (hc : c.toNat < 256) : ∀ j < 8, (busByte (c * bwL8) j).toNat = c.toNat := by
  have hlow : ∀ n, sumTo (fun i => (busByte c i).toNat) (n + 1) = c.toNat := fun n => by
    rw [sumTo_stable _ (Nat.le_add_left 1 n) fun i hi _ => ?_]
    · simp [sumTo, toNat_busByte, hc]
    · have : 2 ^ 8 ≤ 2 ^ (8 * i) := Nat.pow_le_pow_right (by decide) (by omega)
      rw [toNat_busByte, Nat.div_eq_of_lt (by omega)]
  intro j hj
  rw [lanes_mul_L8 ((hlow 7).trans_lt hc) j hj, hlow j]

/-- Section 4: shifting down by `k` lanes and masking reads lane `k`. -/
theorem toNat_shiftRight_and_FF (x : Word) (k : Nat) : ((x >>> (8 * k)) &&& 0xFF#64).toNat = (busByte x k).toNat := by
  rw [toNat_busByte, BitVec.toNat_and, BitVec.toNat_ushiftRight, Nat.shiftRight_eq_div_pow]
  exact Nat.and_two_pow_sub_one_eq_mod _ 8

/-- The lanes of a word shifted up by one lane. -/
theorem busByte_shiftLeft_succ (x : Word) {j : Nat} (hj : j + 1 < 8) : busByte (x <<< 8) (j + 1) = busByte x j := by
  apply BitVec.eq_of_getLsbD_eq
  intro i hi
  simp only [getLsbD_busByte, BitVec.getLsbD_shiftLeft, show 8 * (j + 1) + i - 8 = 8 * j + i by omega]
  simp [show 8 * (j + 1) + i < 64 by omega, show ¬ 8 * (j + 1) + i < 8 by omega]

theorem toNat_busByte_shiftLeft_zero (x : Word) : (busByte (x <<< 8) 0).toNat = 0 := by
  rw [toNat_busByte, BitVec.toNat_shiftLeft, Nat.shiftLeft_eq]
  omega

/-- Section 4's unsigned comparison of byte lanes: the top bit of a lane says that `y` does not exceed `x` there. -/
def laneGe (x y : Word) : Word := ((x ||| bwH8) - y) &&& bwH8

theorem toNat_or_topBit {a : Byte} (ha : a.toNat < 128) : (a ||| 0x80#8).toNat = a.toNat + 128 := by
  revert a
  decide +kernel

theorem setBelow_and_topBit (a : Byte) : setBelow (a &&& 0x80#8).getLsbD 8 = (decide (128 ≤ a.toNat)).toNat := by
  rw [setBelow_eq_sumTo]
  revert a
  decide +kernel

/-- Below 128 no lane borrows, and the comparison leaves one set bit in a lane or none. -/
theorem setBelow_busByte_laneGe (hx : ∀ j < 8, (busByte x j).toNat < 128)
    (hy : ∀ j < 8, (busByte y j).toNat < 128) : ∀ j < 8, setBelow (busByte (laneGe x y) j).getLsbD 8 =
      (decide ((busByte y j).toNat ≤ (busByte x j).toNat)).toNat := by
  have hor : ∀ j < 8, (busByte (x ||| bwH8) j).toNat = (busByte x j).toNat + 128 := fun j hj => by
    obtain ⟨-, -, -, -, hH8, -⟩ := busByte_masks hj
    rw [busByte_or, hH8, toNat_or_topBit (hx j hj)]
  have hle : ∀ j < 8, (busByte y j).toNat ≤ (busByte (x ||| bwH8) j).toNat := fun j hj => by
    have := hy j hj
    rw [hor j hj]
    omega
  intro j hj
  obtain ⟨-, -, -, -, hH8, -⟩ := busByte_masks hj
  rw [laneGe, busByte_and, hH8, setBelow_and_topBit, busByte_sub hle j hj,
    BitVec.toNat_sub_of_le (hle j hj), hor j hj]
  congr 2
  exact propext (by omega)

/-- The number of the first `n` positions that lie below `k`. -/
theorem sumTo_decide_lt {k n : Nat} (h : k ≤ n) : sumTo (fun j => (decide (j < k)).toNat) n = k := by
  rw [← setBelow_eq_sumTo, setBelow_stable _ h fun i hi _ => decide_eq_false (by omega)]
  exact (setBelow_congr (g := fun _ => true) fun i hi => decide_eq_true hi).trans (by simp [setBelow])

/-- A rank at a set position is passed exactly at the later positions. -/
theorem setBelow_le_iff_of_set {f : Nat → Bool} {n q : Nat} (hq : f q = true) :
    setBelow f n ≤ setBelow f q ↔ n ≤ q := by
  refine ⟨fun h => ?_, setBelow_mono f⟩
  by_contra hlt
  have := setBelow_lt_of_set f (Nat.lt_of_not_le hlt) hq
  omega

/-- Section 4: comparing the rank of a set position `q` with the ranks at the multiples of `d` counts the multiples
passed, which is `q / d`: the byte of a word for `d = 8`, the bit of a byte for `d = 1`. -/
theorem toNat_bwCount_laneGe {f : Nat → Bool} {q d : Nat} (hd : 0 < d) (hd8 : d ≤ 8) (hq : q < 8 * d)
    (hset : f q = true) (hc : c.toNat = setBelow f q)
    (hy : ∀ j < 8, (busByte y j).toNat = setBelow f (d * (j + 1))) :
    (bwCount (laneGe (c * bwL8) y)).toNat = q / d := by
  have hcq : c.toNat ≤ q := hc.trans_le (setBelow_le f q)
  have hx := toNat_busByte_broadcast (c := c) (by omega)
  have hy128 : ∀ j < 8, (busByte y j).toNat < 128 := fun j hj =>
    calc (busByte y j).toNat = setBelow f (d * (j + 1)) := hy j hj
      _ ≤ d * (j + 1) := setBelow_le f _
      _ ≤ 8 * 8 := Nat.mul_le_mul hd8 hj
      _ < 128 := by decide
  have hlane : ∀ j < 8, setBelow (busByte (laneGe (c * bwL8) y) j).getLsbD 8 = (decide (j < q / d)).toNat := by
    intro j hj
    rw [setBelow_busByte_laneGe (fun i hi => (hx i hi).trans_lt (by omega)) hy128 j hj, hx j hj, hy j hj, hc]
    congr 2
    rw [setBelow_le_iff_of_set hset, Nat.mul_comm, ← Nat.le_div_iff_mul_le hd]
    rfl
  rw [toNat_bwCount, ← sumTo_lane_counts _ 8, sumTo_congr hlane]
  exact sumTo_decide_lt (Nat.div_le_of_le_mul (by rw [Nat.mul_comm]; exact hq.le))

/-- Section 4's `nz` of a byte `b`: lane `j` keeps bit `j` of `b` alone, and becomes 1 when that is not 0. -/
def spreadBits (b : Word) : Word :=
  let sp := (b * bwL8) &&& bwSPR
  ((((sp ||| bwH8) - bwL8) ||| sp) &&& bwH8) >>> 7

theorem toNat_spreadBit (a : Byte) : ∀ j < 8,
    (((((a &&& BitVec.ofNat 8 (2 ^ j)) ||| 0x80#8) - 0x01#8 ||| (a &&& BitVec.ofNat 8 (2 ^ j))) >>> 7) &&&
      0x01#8).toNat = (a.getLsbD j).toNat := by
  revert a
  decide +kernel

theorem one_le_toNat_or_topBit (a : Byte) : (0x01#8).toNat ≤ (a ||| 0x80#8).toNat := by
  revert a
  decide +kernel

theorem toNat_busByte_spreadBits {b : Word} {a : Byte} (hb : b.toNat = a.toNat) :
    ∀ j < 8, (busByte (spreadBits b) j).toNat = (a.getLsbD j).toNat := by
  have hsp : ∀ j < 8, busByte ((b * bwL8) &&& bwSPR) j = a &&& BitVec.ofNat 8 (2 ^ j) := fun j hj => by
    obtain ⟨-, -, -, -, -, hSPR⟩ := busByte_masks hj
    have hcopy : busByte (b * bwL8) j = a :=
      BitVec.eq_of_toNat_eq ((toNat_busByte_broadcast (hb.trans_lt a.isLt) j hj).trans hb)
    rw [busByte_and, hcopy, hSPR]
  have hshift : spreadBits b =
      (((((b * bwL8) &&& bwSPR) ||| bwH8) - bwL8 ||| ((b * bwL8) &&& bwSPR)) >>> 7) &&& bwL8 :=
    BitVec.ushiftRight_and_distrib _ _ _
  rw [hshift]
  generalize (b * bwL8) &&& bwSPR = sp at hsp
  have hnoBorrow : ∀ j < 8, (busByte bwL8 j).toNat ≤ (busByte (sp ||| bwH8) j).toNat := fun j hj => by
    obtain ⟨-, -, -, hL8, hH8, -⟩ := busByte_masks hj
    rw [busByte_or, hL8, hH8]
    exact one_le_toNat_or_topBit _
  intro j hj
  obtain ⟨-, -, -, hL8, hH8, -⟩ := busByte_masks hj
  have hkeep : ∀ i < 8, (busByte bwL8 j).getLsbD i = true → 7 + i < 8 := by
    rw [hL8]
    decide
  rw [busByte_shift_mask hkeep, busByte_or, busByte_sub hnoBorrow j hj, busByte_or, hsp j hj, hL8, hH8]
  exact toNat_spreadBit a j hj

/-- Section 4: lane `j` of `bsums` counts bits 0 to `j` of the byte. -/
theorem toNat_busByte_bitRanks {b : Word} {a : Byte} (hb : b.toNat = a.toNat) :
    ∀ j < 8, (busByte (spreadBits b * bwL8) j).toNat = setBelow a.getLsbD (1 * (j + 1)) := by
  refine toNat_busByte_mul_L8 (by decide) fun n hn => ?_
  rw [Nat.one_mul, setBelow_eq_sumTo]
  exact sumTo_congr fun i hi => toNat_busByte_spreadBits hb i (by omega)

/-- Section 4's `r`, for byte `k`: the rank less the set bits of the bytes before it. -/
def rankInByte (w c : Word) (place : Nat) : Word := c - ((((bwByteCounts w * bwL8) <<< 8) >>> place) &&& 0xFF#64)

theorem toNat_rankInByte {k : Nat} (hk : k < 8) (h : setBelow w.getLsbD (8 * k) ≤ c.toNat) :
    (rankInByte w c (8 * k)).toNat = c.toNat - setBelow w.getLsbD (8 * k) := by
  have hbefore : (busByte ((bwByteCounts w * bwL8) <<< 8) k).toNat = setBelow w.getLsbD (8 * k) := by
    cases k with
    | zero => exact toNat_busByte_shiftLeft_zero _
    | succ j => rw [busByte_shiftLeft_succ _ hk, toNat_busByte_cumulativeCounts w j (by omega)]
  rw [← hbefore, ← toNat_shiftRight_and_FF] at h ⊢
  rw [rankInByte, BitVec.toNat_sub_of_le (BitVec.le_def.mpr h)]

/-- Section 4's `place`: the bit offset of the byte that holds the target. -/
def bytePlace (w c : Word) : Word := 8#64 * bwCount (laneGe (c * bwL8) (bwByteCounts w * bwL8))

theorem toNat_bytePlace {q : Nat} (hq : q < 64) (hset : w.getLsbD q = true) (hc : c.toNat = setBelow w.getLsbD q) :
    (bytePlace w c).toNat = 8 * (q / 8) := by
  have hbyte : (bwCount (laneGe (c * bwL8) (bwByteCounts w * bwL8))).toNat = q / 8 :=
    toNat_bwCount_laneGe (by decide) (by decide) hq hset hc (toNat_busByte_cumulativeCounts w)
  rw [bytePlace, BitVec.toNat_mul, hbyte, BitVec.toNat_ofNat]
  omega

/-- Section 4's select in its two stages, the byte of the word and the bit of the byte. -/
theorem bwSelectRaw_eq (w c : Word) : bwSelectRaw w c =
    bytePlace w c + bwCount (laneGe (rankInByte w c (bytePlace w c).toNat * bwL8)
      (spreadBits ((w >>> (bytePlace w c).toNat) &&& 0xFF#64) * bwL8)) := by
  simp only [bwSelectRaw, bytePlace, laneGe, rankInByte, spreadBits]

/-- Section 4's select of the rank of a set bit finds that bit. -/
theorem toNat_bwSelectRaw {q : Nat} (hq : q < 64) (hset : w.getLsbD q = true) (hc : c.toNat = setBelow w.getLsbD q) :
    (bwSelectRaw w c).toNat = q := by
  have hk : q / 8 < 8 := by omega
  have hq8 : 8 * (q / 8) + q % 8 = q := Nat.div_add_mod q 8
  have hsplit := setBelow_lane_add w (q / 8) (b := q % 8) (by omega)
  rw [hq8] at hsplit
  have hbit : (busByte w (q / 8)).getLsbD (q % 8) = true := by
    rw [getLsbD_busByte, hq8, hset, decide_eq_true (Nat.mod_lt q (by decide))]
    rfl
  have hrank : (rankInByte w c (8 * (q / 8))).toNat = setBelow (busByte w (q / 8)).getLsbD (q % 8) := by
    rw [toNat_rankInByte hk (by omega)]
    omega
  have hoffset := toNat_bwCount_laneGe (d := 1) (by decide) (by decide) (by omega) hbit hrank
    (toNat_busByte_bitRanks (toNat_shiftRight_and_FF w (q / 8)))
  rw [bwSelectRaw_eq, BitVec.toNat_add, toNat_bytePlace hq hset hc, hoffset, Nat.div_one, hq8]
  exact Nat.mod_eq_of_lt (hq.trans (by decide))

end Lanes

/-- Settles O52: the top lane of the cumulative lane counts is the count of all eight. -/
theorem broadwordCountAgrees : Obligations.BroadwordCountAgrees := toNat_bwCount

/-- Settles O53: a rank below the count is the rank of a set bit, and the select finds that bit. -/
theorem broadwordSelectAgrees : Obligations.BroadwordSelectAgrees := by
  intro w c hc
  obtain ⟨q, hq, hset, hrank⟩ := setBelow_exists w.getLsbD hc
  have hcq : (BitVec.ofNat 64 c).toNat = setBelow w.getLsbD q := by
    rw [hrank]
    exact toNat_zext64 (hc.trans_le ((setBelow_le _ _).trans (by decide)))
  rw [toNat_bwSelectRaw hq hset hcq]
  exact ⟨hq, hset, hrank⟩

end Sys2Proof.Machine
